-- ==== Sys2Proof/Word.lean ====
section
/-! DEFINITION. The value types of the SMS engine: the 8-bit contents of a byte register, the 16-bit value of a wide
view, the 16-bit storage word, and a text line. -/

namespace Sys2Proof

/-- The contents of a byte register, and a literal: an unsigned value 0..255 (10_state.md R13, 00_scope.md R7). -/
abbrev Byte := BitVec 8

/-- The value of a wide view, 0..65535 (10_state.md R14). -/
abbrev Wide := BitVec 16

/-- The 16-bit storage word of one instruction (30_encoding.md R56). -/
abbrev StorageWord := BitVec 16

/-- A text line: a string of characters (30_encoding.md R49). -/
abbrev Line := List Char

end Sys2Proof
end

