-- ==== Sys2Proof/Syntax.lean ====
section
/-! DEFINITION. The abstract syntax of 00_scope.md R11. A literal is a `Byte` and a register is one of 12 names, so
every term of `Instr` is a valid Instruction ("Every such triple is a valid Instruction; there is no other validity
condition", 30_encoding.md R46). -/

namespace Sys2Proof

/-- `Op ::= MOV | ADD | SUB`. -/
inductive Op where
  | mov | add | sub
  deriving DecidableEq, Repr

/-- The 8 stored registers (10_state.md R13). -/
inductive ByteReg where
  | ah | al | bh | bl | ch | cl | dh | dl
  deriving DecidableEq, Repr

/-- The 4 wide views (10_state.md R14). -/
inductive WideReg where
  | ax | bx | cx | dx
  deriving DecidableEq, Repr

/-- `RegName ::= ByteReg | WideReg`, the 12 names (10_state.md R16). -/
inductive RegName where
  | byte (r : ByteReg)
  | wide (w : WideReg)
  deriving DecidableEq, Repr

/-- `Src ::= Reg(RegName) | Lit(n), 0 <= n <= 255`. -/
inductive Src where
  | reg (n : RegName)
  | lit (v : Byte)
  deriving DecidableEq, Repr

/-- A typed Instruction `{op, dest, src}`: one constructor per row of the opcode map (30_encoding.md R62), the
operation in format RR (register source) or RI (literal source). -/
inductive Instr where
  | movRR (rd rs : RegName)
  | movRI (rd : RegName) (imm : Byte)
  | addRR (rd rs : RegName)
  | addRI (rd : RegName) (imm : Byte)
  | subRR (rd rs : RegName)
  | subRI (rd : RegName) (imm : Byte)
  deriving DecidableEq, Repr

/-- The three error kinds of the decoder (60_exceptions.md R102). -/
inductive DecodeError where
  | unknownRegister
  | invalidLiteral
  | malformedLine
  deriving DecidableEq, Repr

end Sys2Proof
end

