-- ==== Sys2Proof/Machine/Alu.lean ====
section
/-! DEFINITION. The ALU: the exact sum or difference over the integers, then the clamp (00_scope.md R9, 40_mov.md R68,
41_add_sub.md R76, 42_wide_operands.md R82 to R84). No flag is computed: saturation leaves no trace (10_state.md R27). -/

namespace Sys2Proof.Machine

/-- `clamp(v, lo, hi)` (R9). -/
def clamp (v lo hi : Int) : Int := if v < lo then lo else if v > hi then hi else v

/-- `new` of a byte destination, from the old value and the operand (R68). -/
def aluByte (op : Op) (old operand : Byte) : Byte :=
  match op with
  | .mov => operand
  | .add => BitVec.ofInt 8 (clamp ((old.toNat : Int) + operand.toNat) 0 255)
  | .sub => BitVec.ofInt 8 (clamp ((old.toNat : Int) - operand.toNat) 0 255)

/-- `new` under `wide16`, with `hi` the destination's maximum: `MOV` clamps the operand (R82), `ADD` the sum (R83), `SUB`
the difference (R84). -/
def aluWide (op : Op) (hi old operand : Nat) : Nat :=
  match op with
  | .mov => min operand hi
  | .add => (clamp ((old : Int) + operand) 0 hi).toNat
  | .sub => (clamp ((old : Int) - operand) 0 hi).toNat

end Sys2Proof.Machine
end

