-- ==== Sys2Proof/Config.lean ====
section
/-! DEFINITION. The three open parameters of 00_scope.md R8. SMS does not fix them, so the model takes each as an
argument: an engine carries its own `Params` in its state, every step leaves them alone, and statements hold for every
value of them. No value of this hardware is left free (70_reset_and_hazards.md R120), so there is no opaque constant. -/

namespace Sys2Proof

/-- `WIDE_OPERAND_POLICY` (42_wide_operands.md R79): what executing an instruction that names `AX`..`DX` does.
`wide16` is the spec's own construction, with no evidence in SMS (92_eei_decisions.md D16). -/
inductive WideOperandPolicy where
  /-- No successor state (R80). -/
  | fault
  /-- Arithmetic at the destination's width (R81 to R85). -/
  | wide16
  deriving DecidableEq, Repr

/-- `RESTART_MODE` (45_engine_commands.md R93): whether the `STEP` that restarts a completed run also executes
`prog[0]`. -/
inductive RestartMode where
  | resetOnly
  | resetAndExecute
  deriving DecidableEq, Repr

/-- The open parameters of one engine. `progMax = none` is `unbounded` (10_state.md R24). -/
structure Params where
  wideOperandPolicy : WideOperandPolicy
  restartMode : RestartMode
  progMax : Option Nat
  deriving DecidableEq, Repr

end Sys2Proof
end

