-- ==== Sys2Proof/Machine/Params.lean ====
section
/-! DEFINITION. The two values of the open parameters that the model names: the defaults of the spec, and those of the
engine that `State.reset` creates. -/

namespace Sys2Proof.Machine

/-- The default of every open parameter (00_scope.md R8): `fault`, `reset_only`, `unbounded`. -/
def defaultParams : Params :=
  { wideOperandPolicy := .fault, restartMode := .resetOnly, progMax := none }

/-- The parameters of the engine `State.reset`: the defaults, except that an instruction naming a wide register has the
effect rules R81 to R85 give it instead of stopping the machine.
DESIGN CHOICE (unsafe, notes/assumptions/1.md): SMS gives no effect (R79); both policies are modelled, and
`State.resetWith defaultParams` is the engine with every default. -/
def resetParams : Params := { defaultParams with wideOperandPolicy := .wide16 }

end Sys2Proof.Machine
end

