-- ==== Sys2Proof/Machine/State.lean ====
section
/-! DEFINITION. The state of the machine as plain data: the architectural state of one engine (10_state.md: 8 byte
registers, one Program, one cursor), its open parameters (00_scope.md R8), and the two ends of the command interface to
the host (45_engine_commands.md R86): the commands the host has still to issue, and the result of the last one. -/

namespace Sys2Proof.Machine

/-- The 8 byte registers, the only register storage of the hardware (R13). A wide view is no field: it "has no storage
of its own" (R14, R29, 70_reset_and_hazards.md R123). -/
structure Regs where
  ah : Byte
  al : Byte
  bh : Byte
  bl : Byte
  ch : Byte
  cl : Byte
  dh : Byte
  dl : Byte
  deriving DecidableEq, Repr

/-- Every byte register 0, what `reset_all` leaves (R21). -/
def Regs.zero : Regs := ⟨0, 0, 0, 0, 0, 0, 0, 0⟩

/-- One entry of a snapshot: a register name and the three renderings of its value (R97). -/
structure SnapshotEntry where
  name : RegName
  bin : Line
  dec : Nat
  hex : Line
  deriving DecidableEq, Repr

/-- `StepResult` (R96); `executedIndex = none` when the step executed no instruction. -/
structure StepResult where
  executedIndex : Option Nat
  registerSnapshot : List SnapshotEntry
  deriving DecidableEq, Repr

/-- What `APPEND` is given: a text line, a typed Instruction or a storage word (30_encoding.md R55). -/
inductive AppendArg where
  | text (line : Line)
  | typed (i : Instr)
  | word (w : StorageWord)
  deriving DecidableEq, Repr

/-- The five commands of the host (R86). -/
inductive Command where
  | append (arg : AppendArg)
  | removeLast
  | step
  | run
  | snapshot
  deriving DecidableEq, Repr

/-- Why an `APPEND` fails (60_exceptions.md R103). -/
inductive AppendError where
  | decode (e : DecodeError)
  /-- Only when `PROG_MAX` is a number (R111). -/
  | programFull
  deriving DecidableEq, Repr

/-- The result a command returns to the host (R86). -/
inductive Response where
  /-- `APPEND`: `Ok`. -/
  | appended
  /-- `APPEND`: `Err(e)`. -/
  | appendFailed (e : AppendError)
  /-- `REMOVE_LAST`: whether an instruction was removed. -/
  | removed (b : Bool)
  /-- `STEP`. -/
  | stepped (r : StepResult)
  /-- `RUN`: the results of its steps in execution order. -/
  | ran (rs : List StepResult)
  /-- `SNAPSHOT`. -/
  | snapshot (entries : List SnapshotEntry)
  deriving DecidableEq, Repr

/-- Why the machine stops. -/
inductive Fault where
  /-- Raised by the execution of an instruction that names a wide register when `WIDE_OPERAND_POLICY = fault`; `index`
  is the cursor (42_wide_operands.md R80, 60_exceptions.md R110). Safe: the model stops where the engine goes on. -/
  | wideOperandUnspecified (index : Nat)
  deriving DecidableEq, Repr

/-- Why an instruction has no meaning in the model. -/
inductive Refusal where
  /-- An arm of `exec` that has no meaning yet; no arm is one. Safe. -/
  | notModelled (mnemonic : String)
  deriving DecidableEq, Repr

/-- The state of the machine. -/
structure State where
  /-- The 8 byte registers (R13). -/
  regs : Regs
  /-- The Program: `prog[0] .. prog[len-1]` (R23). -/
  prog : List Instr
  /-- The ExecutionCursor, counting whole instructions (R25). -/
  pc : Nat
  /-- The open parameters of this engine (00_scope.md R8); no step changes them. -/
  params : Params
  /-- The MODEL's own field: the commands the host has still to issue, the next one first. When it is empty the host
  issues `STEP` (DESIGN CHOICE, notes/assumptions/2.md). -/
  commands : List Command
  /-- The MODEL's own field: what the last command returned to the host, `none` before the first. The engine never reads
  it (notes/assumptions/3.md). -/
  response : Option Response
  deriving DecidableEq, Repr

/-- Power-on reset of an engine with the parameters `p` (10_state.md R31, 70_reset_and_hazards.md R118). -/
def State.resetWith (p : Params) : State :=
  { regs := Regs.zero, prog := [], pc := 0, params := p, commands := [], response := none }

/-- The machine right after power-on reset. -/
def State.reset : State := State.resetWith resetParams

end Sys2Proof.Machine
end

