-- ==== Sys2Proof/Machine/Ops.lean ====
section
/-! DEFINITION. The named operations on the state: the register file's ports (10_state.md R17 to R21), the updates of the
other fields, the shared operation that rejects a command (60_exceptions.md R105, R108; there is no return from it, R109),
and the execution state machine's states (R26). There is no data memory (20_memory.md R32), so there are no memory
operations, and no flags (R27), so there are none of those. -/

namespace Sys2Proof.Machine

/-! ### The register file -/

/-- `hi(w)`, the byte in bits 15:8 of a wide view (R15). -/
def hiByte : WideReg → ByteReg
  | .ax => .ah | .bx => .bh | .cx => .ch | .dx => .dh

/-- `lo(w)`, the byte in bits 7:0 of a wide view (R15). -/
def loByte : WideReg → ByteReg
  | .ax => .al | .bx => .bl | .cx => .cl | .dx => .dl

/-- `owner(r)`, the wide view a byte register is part of (R15). -/
def owner : ByteReg → WideReg
  | .ah | .al => .ax
  | .bh | .bl => .bx
  | .ch | .cl => .cx
  | .dh | .dl => .dx

/-- The port `read_byte` (R17). -/
def readByte (r : ByteReg) (x : Regs) : Byte :=
  match r with
  | .ah => x.ah | .al => x.al | .bh => x.bh | .bl => x.bl
  | .ch => x.ch | .cl => x.cl | .dh => x.dh | .dl => x.dl

/-- The port `write_byte` (R18). -/
def writeByte (r : ByteReg) (v : Byte) (x : Regs) : Regs :=
  match r with
  | .ah => { x with ah := v } | .al => { x with al := v }
  | .bh => { x with bh := v } | .bl => { x with bl := v }
  | .ch => { x with ch := v } | .cl => { x with cl := v }
  | .dh => { x with dh := v } | .dl => { x with dl := v }

/-- The port `read_wide` (R19): the wide view is `{ x[hi(w)], x[lo(w)] }` (R14). -/
def readWide (w : WideReg) (x : Regs) : Wide := readByte (hiByte w) x ++ readByte (loByte w) x

/-- The write-back of a wide destination as two byte writes, `x[hi(w)] <- new div 256; x[lo(w)] <- new mod 256`
(42_wide_operands.md R85). -/
def writeWide (w : WideReg) (new : Nat) (x : Regs) : Regs :=
  writeByte (loByte w) (BitVec.ofNat 8 (new % 256)) (writeByte (hiByte w) (BitVec.ofNat 8 (new / 256)) x)

/-- The current value of any of the 12 names (R97). -/
def readReg (n : RegName) (x : Regs) : Nat :=
  match n with
  | .byte r => (readByte r x).toNat
  | .wide w => (readWide w x).toNat

/-! ### Updates of the state -/

/-- The registers replaced. -/
def State.setRegs (s : State) (x : Regs) : State := { s with regs := x }

/-- `pc <- t`. -/
def State.setPc (s : State) (t : Nat) : State := { s with pc := t }

/-- The Program replaced. -/
def State.setProg (s : State) (p : List Instr) : State := { s with prog := p }

/-- The host's remaining commands replaced. -/
def State.setCommands (s : State) (cs : List Command) : State := { s with commands := cs }

/-- The result of the command returned to the host. -/
def State.respond (s : State) (r : Response) : State := { s with response := some r }

/-- The port `reset_all()` (R21): every byte register 0, the Program and the cursor untouched. -/
def State.resetAll (s : State) : State := s.setRegs Regs.zero

/-- `reset_all()` and `pc <- 0`, what every event of 70_reset_and_hazards.md R119 does. -/
def State.restart (s : State) : State := s.resetAll.setPc 0

/-- A command that ends in `raise <Error>`: the failure is its result and nothing of the engine changes
(60_exceptions.md R105, R108). -/
def State.reject (s : State) (e : AppendError) : State := s.respond (.appendFailed e)

/-- The Program holds `PROG_MAX` instructions (R24). -/
def State.isFull (s : State) : Bool :=
  match s.params.progMax with
  | none => false
  | some n => n ≤ s.prog.length

/-! ### The execution state machine -/

/-- `Idle`, `Running`, `Completed` (R26). -/
inductive ExecState where
  | idle | running | completed
  deriving DecidableEq, Repr

/-- The execution state, a function of `pc` and `len` (R26); the empty Program is `Idle` (90_conflicts.md C6). -/
def State.execState (s : State) : ExecState :=
  if s.prog.length = 0 ∨ s.pc = 0 then .idle
  else if s.pc < s.prog.length then .running
  else .completed

end Sys2Proof.Machine
end

