-- ==== Sys2Proof/Machine/Operands.lean ====
section
/-! DEFINITION. Operand values and destinations at any width (42_wide_operands.md R81, R85). -/

namespace Sys2Proof.Machine

/-- `val(src)` (R81): a narrower operand is zero-extended. -/
def srcValue (src : Src) (x : Regs) : Nat :=
  match src with
  | .lit v => v.toNat
  | .reg n => readReg n x

/-- `MAX(dest)` (R81). -/
def maxOf : RegName → Nat
  | .byte _ => 255
  | .wide _ => 65535

/-- The write-back of `new ≤ MAX(dest)` (R85). -/
def writeDest (dest : RegName) (new : Nat) (x : Regs) : Regs :=
  match dest with
  | .byte r => writeByte r (BitVec.ofNat 8 new) x
  | .wide w => writeWide w new x

end Sys2Proof.Machine
end

