-- ==== Sys2Proof/Machine/Execute.lean ====
section
/-! DEFINITION. The execution frame shared by all six instructions (40_mov.md R68) and its branch for instructions that
name a wide register (42_wide_operands.md R79). It touches only registers; `STEP` and `RUN` move the cursor. -/

namespace Sys2Proof.Machine

/-- The byte branch of `Execute` (R68): both operands are read before the one write. -/
def executeByte (op : Op) (dest : ByteReg) (operand : Byte) (s : State) : Host.Outcome State Fault Refusal :=
  .next (s.setRegs (writeByte dest (aluByte op (readByte dest s.regs) operand) s.regs))

/-- `ExecuteWide` (R79): a fault under the policy `fault` (R80), arithmetic at the destination's width under `wide16`
(R81 to R85; the spec's own construction, 92_eei_decisions.md D16). -/
def executeWide (op : Op) (dest : RegName) (src : Src) (s : State) : Host.Outcome State Fault Refusal :=
  match s.params.wideOperandPolicy with
  | .fault => .fault (.wideOperandUnspecified s.pc)
  | .wide16 =>
    .next (s.setRegs (writeDest dest
      (aluWide op (maxOf dest) (readReg dest s.regs) (srcValue src s.regs)) s.regs))

/-- `Execute` (R68). -/
def execute (op : Op) (dest : RegName) (src : Src) (s : State) : Host.Outcome State Fault Refusal :=
  match dest, src with
  | .byte d, .lit v => executeByte op d v s
  | .byte d, .reg (.byte r) => executeByte op d (readByte r s.regs) s
  | .byte d, .reg (.wide w) => executeWide op (.byte d) (.reg (.wide w)) s
  | .wide w, src => executeWide op (.wide w) src s

end Sys2Proof.Machine
end

