-- ==== Sys2Proof/Machine/AddSub.lean ====
section
/-! DEFINITION. The meanings of the `ADD` and `SUB` family (41_add_sub.md). -/

namespace Sys2Proof.Machine

/-- `ADD rd, rs`: `x[rd] <- min(x[rd] + x[rs], 255)` (R73); wide operands by R83. -/
def execAddRR (rd rs : RegName) (s : State) : Host.Outcome State Fault Refusal := execute .add rd (.reg rs) s

/-- `ADD rd, imm`: `x[rd] <- min(x[rd] + imm, 255)` (R72); a wide destination by R83. -/
def execAddRI (rd : RegName) (imm : Byte) (s : State) : Host.Outcome State Fault Refusal := execute .add rd (.lit imm) s

/-- `SUB rd, rs`: `x[rd] <- max(x[rd] - x[rs], 0)` (R75); wide operands by R84. -/
def execSubRR (rd rs : RegName) (s : State) : Host.Outcome State Fault Refusal := execute .sub rd (.reg rs) s

/-- `SUB rd, imm`: `x[rd] <- max(x[rd] - imm, 0)` (R74); a wide destination by R84. -/
def execSubRI (rd : RegName) (imm : Byte) (s : State) : Host.Outcome State Fault Refusal := execute .sub rd (.lit imm) s

end Sys2Proof.Machine
end

