-- ==== Sys2Proof/Machine/Mov.lean ====
section
/-! DEFINITION. The meanings of the `MOV` family (40_mov.md). -/

namespace Sys2Proof.Machine

/-- `MOV rd, rs`: `x[rd] <- x[rs]` (R70); wide operands by R82. -/
def execMovRR (rd rs : RegName) (s : State) : Host.Outcome State Fault Refusal := execute .mov rd (.reg rs) s

/-- `MOV rd, imm`: `x[rd] <- imm` (R69); a wide destination by R82. -/
def execMovRI (rd : RegName) (imm : Byte) (s : State) : Host.Outcome State Fault Refusal := execute .mov rd (.lit imm) s

end Sys2Proof.Machine
end

