-- ==== Sys2Proof/Machine/Dispatch.lean ====
section
/-! DEFINITION. `exec`: one arm per instruction. -/

namespace Sys2Proof.Machine

def exec (i : Instr) (s : State) : Host.Outcome State Fault Refusal :=
  match i with
  | .movRR rd rs => Sys2Proof.Machine.execMovRR rd rs s
  | .movRI rd imm => Sys2Proof.Machine.execMovRI rd imm s
  | .addRR rd rs => Sys2Proof.Machine.execAddRR rd rs s
  | .addRI rd imm => Sys2Proof.Machine.execAddRI rd imm s
  | .subRR rd rs => Sys2Proof.Machine.execSubRR rd rs s
  | .subRI rd imm => Sys2Proof.Machine.execSubRI rd imm s

end Sys2Proof.Machine
end

