-- ==== Sys2Proof/WellFormed.lean ====
section
/-! DEFINITION. Well-formedness of raw inputs: the five ways a storage word is illegal (30_encoding.md R63), the shape of a
text line (R49), and the bound on `PROG_MAX` (00_scope.md R8). A typed `Instr` needs no check: the type admits valid ones
only (R46). -/

namespace Sys2Proof

/-- `w[15:14] = 0b11`, the reserved operation. -/
def wordReservedOp (w : StorageWord) : Bool := w.extractLsb' 14 2 == 0b11#2

/-- `w[12] = 1`, the reserved bit. -/
def wordReservedBit (w : StorageWord) : Bool := w.getLsbD 12

/-- Format RR (`w[13] = 0`) with `w[7:4]` not zero. -/
def wordBadPadding (w : StorageWord) : Bool := !w.getLsbD 13 && w.extractLsb' 4 4 != 0#4

/-- `w[11:8] > 11`: the destination code names no register. -/
def wordUnknownDest (w : StorageWord) : Bool := 11 < (w.extractLsb' 8 4).toNat

/-- Format RR with `w[3:0] > 11`: the source code names no register. -/
def wordUnknownSource (w : StorageWord) : Bool := !w.getLsbD 13 && 11 < (w.extractLsb' 0 4).toNat

/-- A word is legal when none of the five conditions of R63 holds. -/
def wordLegal (w : StorageWord) : Bool :=
  !wordReservedOp w && !wordReservedBit w && !wordBadPadding w && !wordUnknownDest w && !wordUnknownSource w

/-- Blanks: spaces and tabs only, possibly none (R49 item 1). -/
def IsBlank (w : Line) : Prop := ∀ c ∈ w, c = ' ' ∨ c = '\t'

/-- A token of a line that is not refused for its characters: at least one character, each of them printable ASCII
0x21..0x7E and no comma (R49 items 3 and 7). -/
def IsToken (t : Line) : Prop := t ≠ [] ∧ ∀ c ∈ t, 0x21 ≤ c.toNat ∧ c.toNat ≤ 0x7E ∧ c ≠ ','

/-- The line has the shape `WS* OP WS+ DEST WS* "," WS* SRC WS*` with these three tokens, and at most one line terminator
after it (R49 items 2 and 4). -/
def HasShape (line op dest src : Line) : Prop :=
  IsToken op ∧ IsToken dest ∧ IsToken src ∧
  ∃ w₁ w₂ w₃ w₄ w₅ eol : Line,
    IsBlank w₁ ∧ IsBlank w₂ ∧ w₂ ≠ [] ∧ IsBlank w₃ ∧ IsBlank w₄ ∧ IsBlank w₅ ∧
    eol ∈ [[], ['\n'], ['\r', '\n'], ['\r']] ∧
    line = w₁ ++ op ++ w₂ ++ dest ++ w₃ ++ [','] ++ w₄ ++ src ++ w₅ ++ eol

/-- `PROG_MAX` is "a natural number ≥ 1, or `unbounded`" (00_scope.md R8). -/
def Params.wellFormed (p : Params) : Bool := p.progMax != some 0

end Sys2Proof
end

