-- ==== Sys2Proof/Decode.lean ====
section
/-! DEFINITION. The decoders and encoders between the three representations of an instruction (30_encoding.md R45):
the 16-bit storage word (R56 to R62), the text line (R48 to R52, R65) and the typed `Instr`. Every decoder is total and
names the error of an input it rejects. -/

namespace Sys2Proof

/-! ### The typed triple (R46) -/

/-- The field `op`. -/
def Instr.op : Instr → Op
  | .movRR _ _ | .movRI _ _ => .mov
  | .addRR _ _ | .addRI _ _ => .add
  | .subRR _ _ | .subRI _ _ => .sub

/-- The field `dest`. -/
def Instr.dest : Instr → RegName
  | .movRR rd _ | .movRI rd _ | .addRR rd _ | .addRI rd _ | .subRR rd _ | .subRI rd _ => rd

/-- The field `src`. -/
def Instr.src : Instr → Src
  | .movRR _ rs | .addRR _ rs | .subRR _ rs => .reg rs
  | .movRI _ imm | .addRI _ imm | .subRI _ imm => .lit imm

/-- The Instruction `{op, dest, src}`. -/
def mkInstr (op : Op) (dest : RegName) (src : Src) : Instr :=
  match op, src with
  | .mov, .reg rs => .movRR dest rs
  | .mov, .lit imm => .movRI dest imm
  | .add, .reg rs => .addRR dest rs
  | .add, .lit imm => .addRI dest imm
  | .sub, .reg rs => .subRR dest rs
  | .sub, .lit imm => .subRI dest imm

/-- The register name is a wide one. -/
def RegName.isWide : RegName → Bool
  | .byte _ => false
  | .wide _ => true

/-- The instruction names a wide register, as its destination or as its source (42_wide_operands.md, introduction). -/
def Instr.namesWide (i : Instr) : Bool :=
  i.dest.isWide || (match i.src with | .reg n => n.isWide | .lit _ => false)

/-- The 12 names in SMS's order, `AX,AH,AL,BX,BH,BL,CX,CH,CL,DX,DH,DL` (R58; 45_engine_commands.md R97). -/
def RegName.all : List RegName :=
  [.wide .ax, .byte .ah, .byte .al, .wide .bx, .byte .bh, .byte .bl,
   .wide .cx, .byte .ch, .byte .cl, .wide .dx, .byte .dh, .byte .dl]

/-! ### The storage word -/

/-- `w[lo + len - 1 : lo]` as a natural (00_scope.md R9). -/
def bitField (w : StorageWord) (lo len : Nat) : Nat := w.toNat / 2 ^ lo % 2 ^ len

/-- Operation codes (R57). -/
def Op.code : Op → Nat
  | .mov => 0
  | .add => 1
  | .sub => 2

/-- The operation of a code; `0b11` is reserved (R57). -/
def opOfCode : Nat → Option Op
  | 0 => some .mov
  | 1 => some .add
  | 2 => some .sub
  | _ => none

/-- Register codes (R58). -/
def RegName.code : RegName → Nat
  | .wide .ax => 0 | .byte .ah => 1 | .byte .al => 2
  | .wide .bx => 3 | .byte .bh => 4 | .byte .bl => 5
  | .wide .cx => 6 | .byte .ch => 7 | .byte .cl => 8
  | .wide .dx => 9 | .byte .dh => 10 | .byte .dl => 11

/-- The name of a register code; codes 12 to 15 name no register (R58). -/
def regOfCode : Nat → Option RegName
  | 0 => some (.wide .ax) | 1 => some (.byte .ah) | 2 => some (.byte .al)
  | 3 => some (.wide .bx) | 4 => some (.byte .bh) | 5 => some (.byte .bl)
  | 6 => some (.wide .cx) | 7 => some (.byte .ch) | 8 => some (.byte .cl)
  | 9 => some (.wide .dx) | 10 => some (.byte .dh) | 11 => some (.byte .dl)
  | _ => none

/-- `DecodeWord` (R60): the checks in the rule's order; the first that fails decides the error. -/
def decodeWord (w : StorageWord) : Except DecodeError Instr :=
  match opOfCode (bitField w 14 2) with
  | none => .error .malformedLine
  | some op =>
    if bitField w 12 1 = 1 then .error .malformedLine
    else if bitField w 13 1 = 0 ∧ bitField w 4 4 ≠ 0 then .error .malformedLine
    else match regOfCode (bitField w 8 4) with
      | none => .error .unknownRegister
      | some dest =>
        if bitField w 13 1 = 1 then .ok (mkInstr op dest (.lit (BitVec.ofNat 8 (bitField w 0 8))))
        else match regOfCode (bitField w 0 4) with
          | none => .error .unknownRegister
          | some n => .ok (mkInstr op dest (.reg n))

/-- `Encode` (R59): `op<<14 | I<<13 | code(dest)<<8 | (I = 1 ? v : code(n))`. -/
def encode (i : Instr) : StorageWord :=
  match i.src with
  | .lit v => BitVec.ofNat 16 (i.op.code * 2 ^ 14 + 2 ^ 13 + i.dest.code * 2 ^ 8 + v.toNat)
  | .reg n => BitVec.ofNat 16 (i.op.code * 2 ^ 14 + i.dest.code * 2 ^ 8 + n.code)

/-- What the decoder reads from an instruction whose bits are `w`, numbered as the opcode table numbers them. A storage
word is one indivisible 16-bit unit with no serialisation into bytes (20_memory.md R34), so bit `k` of `w` is bit `k` of
the word. Bits above `nbits` are 0. -/
def decodeTableWord (nbits w : Nat) : Option Instr :=
  if nbits ≤ 16 ∧ w < 2 ^ nbits then (decodeWord (BitVec.ofNat 16 w)).toOption else none

/-! ### The text line -/

/-- The name of a register as it is written. -/
def RegName.text : RegName → Line
  | .wide .ax => ['A', 'X'] | .byte .ah => ['A', 'H'] | .byte .al => ['A', 'L']
  | .wide .bx => ['B', 'X'] | .byte .bh => ['B', 'H'] | .byte .bl => ['B', 'L']
  | .wide .cx => ['C', 'X'] | .byte .ch => ['C', 'H'] | .byte .cl => ['C', 'L']
  | .wide .dx => ['D', 'X'] | .byte .dh => ['D', 'H'] | .byte .dl => ['D', 'L']

/-- The register a token names, if any: exact and case-sensitive (R49 item 5). -/
def regOfText (tok : Line) : Option RegName := RegName.all.find? (fun n => n.text == tok)

/-- The mnemonic of an operation as it is written. -/
def Op.text : Op → Line
  | .mov => ['M', 'O', 'V']
  | .add => ['A', 'D', 'D']
  | .sub => ['S', 'U', 'B']

/-- The operation a token names, if any: exact and case-sensitive (R49 item 5). -/
def opOfText (tok : Line) : Option Op := [Op.mov, Op.add, Op.sub].find? (fun o => o.text == tok)

/-- `WS`, the set {space, tab} (R49 item 1). -/
def isWs (c : Char) : Bool := c == ' ' || c == '\t'

/-- A character a token may hold: neither in `WS` nor a comma (R49 item 3). -/
def isTokenChar (c : Char) : Bool := !isWs c && c != ','

/-- A space, a tab, or a printable ASCII character 0x21..0x7E (R49 item 7). -/
def isAllowedChar (c : Char) : Bool := isWs c || (0x21 ≤ c.toNat && c.toNat ≤ 0x7E)

/-- An ASCII decimal digit (R50). -/
def isDecimalDigit (c : Char) : Bool := 48 ≤ c.toNat && c.toNat ≤ 57

/-- An ASCII letter or `_`: the start of a name (R52). -/
def isNameStart (c : Char) : Bool :=
  (65 ≤ c.toNat && c.toNat ≤ 90) || (97 ≤ c.toNat && c.toNat ≤ 122) || c == '_'

/-- A digit or a sign: the start of a number (R52). -/
def isNumberStart (c : Char) : Bool := isDecimalDigit c || c == '+' || c == '-'

/-- One trailing `LF`, `CR LF` or `CR` removed (R49 item 2). -/
def stripTerminator (l : Line) : Line :=
  match l.reverse with
  | '\n' :: '\r' :: r => r.reverse
  | '\n' :: r => r.reverse
  | '\r' :: r => r.reverse
  | _ => l

/-- The token a line begins with (empty if it begins with none), and what follows it (R49 item 3). -/
def takeToken (l : Line) : Line × Line := (l.takeWhile isTokenChar, l.dropWhile isTokenChar)

/-- The line with its leading blanks removed. -/
def skipWs (l : Line) : Line := l.dropWhile isWs

/-- The shape `WS* OP WS+ DEST WS* "," WS* SRC WS*` (R49 item 4): the three tokens, or `none`. -/
def splitLine (l : Line) : Option (Line × Line × Line) :=
  let (op, afterOp) := takeToken (skipWs l)
  let (dest, afterDest) := takeToken (skipWs afterOp)
  match op, dest, skipWs afterDest with
  | _ :: _, _ :: _, ',' :: afterComma =>
    let (src, afterSrc) := takeToken (skipWs afterComma)
    match src, skipWs afterSrc with
    | _ :: _, [] => some (op, dest, src)
    | _, _ => none
  | _, _, _ => none

/-- The decimal number a string of digits spells, over the naturals with no width limit (R50). -/
def literalValue (tok : Line) : Nat := tok.foldl (fun n c => 10 * n + (c.toNat - 48)) 0

/-- `ClassifySrc` (R52): the first character decides whether a name or a number was meant. -/
def classifySrc (tok : Line) : Except DecodeError Src :=
  match tok with
  | [] => .error .malformedLine
  | c :: _ =>
    if isNameStart c then
      match regOfText tok with
      | some n => .ok (.reg n)
      | none => .error .unknownRegister
    else if isNumberStart c then
      if tok.all isDecimalDigit && literalValue tok ≤ 255 then .ok (.lit (BitVec.ofNat 8 (literalValue tok)))
      else .error .invalidLiteral
    else .error .malformedLine

/-- `DecodeLine` (R51): the checks in the rule's order; the first that fails decides the error. -/
def decodeLine (line : Line) : Except DecodeError Instr :=
  let l := stripTerminator line
  if !l.all isAllowedChar then .error .malformedLine
  else match splitLine l with
    | none => .error .malformedLine
    | some (op, dest, src) =>
      match opOfText op with
      | none => .error .malformedLine
      | some o =>
        match regOfText dest with
        | none => .error .unknownRegister
        | some d =>
          match classifySrc src with
          | .error e => .error e
          | .ok s => .ok (mkInstr o d s)

/-- The character of a decimal digit `0 ≤ d ≤ 9`. -/
def digitChar (d : Nat) : Char := Char.ofNat (48 + d)

/-- A literal in decimal without leading zeros (R65). -/
def printLiteral (v : Byte) : Line :=
  let n := v.toNat
  if n < 10 then [digitChar n]
  else if n < 100 then [digitChar (n / 10), digitChar (n % 10)]
  else [digitChar (n / 100), digitChar (n / 10 % 10), digitChar (n % 10)]

/-- A source operand as it is printed. -/
def printSrc : Src → Line
  | .reg n => n.text
  | .lit v => printLiteral v

/-- The canonical printed form `OP DEST, SRC` (R65). -/
def printInstr (i : Instr) : Line :=
  i.op.text ++ [' '] ++ i.dest.text ++ [',', ' '] ++ printSrc i.src

end Sys2Proof
end

