-- ==== Sys2Proof/Machine/Snapshot.lean ====
section
/-! DEFINITION. The register snapshot (45_engine_commands.md R97): for each of the 12 names its value as an integer, as a
binary string and as a hexadecimal string. -/

namespace Sys2Proof.Machine

/-- The number of bits of a name's value: 8 for a byte register, 16 for a wide view. -/
def regWidth : RegName → Nat
  | .byte _ => 8
  | .wide _ => 16

/-- `v` in exactly `width` binary digits, most significant first. -/
def binString : Nat → Nat → Line
  | 0, _ => []
  | width + 1, v => (if v / 2 ^ width % 2 = 1 then '1' else '0') :: binString width v

/-- An upper-case hexadecimal digit `0 ≤ d ≤ 15`. -/
def hexDigit (d : Nat) : Char := if d < 10 then Char.ofNat (48 + d) else Char.ofNat (55 + d)

/-- `v` in exactly `digits` upper-case hexadecimal digits, most significant first. -/
def hexString : Nat → Nat → Line
  | 0, _ => []
  | digits + 1, v => hexDigit (v / 16 ^ digits % 16) :: hexString digits v

/-- The entry of one name. -/
def snapshotEntry (x : Regs) (n : RegName) : SnapshotEntry :=
  let v := readReg n x
  { name := n, bin := binString (regWidth n) v, dec := v, hex := hexString (regWidth n / 4) v }

/-- `Snapshot()`: the 12 entries in the order `AX,AH,AL,BX,..,DL`. -/
def snapshotOf (x : Regs) : List SnapshotEntry := RegName.all.map (snapshotEntry x)

end Sys2Proof.Machine
end

