-- ==== Sys2Proof/Machine/Commands.lean ====
section
/-! DEFINITION. The five host commands, each one atomic transition (45_engine_commands.md R86). -/

namespace Sys2Proof.Machine

/-! ### Editing the Program -/

/-- The Instruction `APPEND` is given, or the decoder's error (R87). -/
def decodeArg : AppendArg → Except DecodeError Instr
  | .text line => decodeLine line
  | .typed i => .ok i
  | .word w => decodeWord w

/-- `APPEND(arg)` (R87): decoded, then tested against `PROG_MAX`, then stored at the end of the Program with `pc <- 0` and
`reset_all()` (R89). A failure changes nothing (R90). -/
def appendCommand (arg : AppendArg) (s : State) : State :=
  match decodeArg arg with
  | .error e => s.reject (.decode e)
  | .ok i =>
    if s.isFull then s.reject .programFull
    else ((s.setProg (s.prog ++ [i])).restart).respond .appended

/-- `REMOVE_LAST()` (R88). -/
def removeLastCommand (s : State) : State :=
  match s.prog with
  | [] => s.respond (.removed false)
  | _ :: _ => ((s.setProg s.prog.dropLast).restart).respond (.removed true)

/-! ### Executing -/

/-- `Execute(prog[k]); pc <- k + 1` with `k = pc` and `i = prog[k]` (R94). -/
def executeAtCursor (i : Instr) (s : State) : Host.Outcome State Fault Refusal :=
  match exec i s with
  | .next t => .next (t.setPc (s.pc + 1))
  | .fault f => .fault f
  | .refused r => .refused r

/-- The `StepResult` of a step that executed the instruction of index `k`, or none, and left the registers `x` (R96). -/
def stepResult (k : Option Nat) (x : Regs) : StepResult := { executedIndex := k, registerSnapshot := snapshotOf x }

/-- The part of `STEP` that executes `i = prog[pc]` and returns its result (R94). -/
def stepExecuting (i : Instr) (s : State) : Host.Outcome State Fault Refusal :=
  match executeAtCursor i s with
  | .next t => .next (t.respond (.stepped (stepResult (some s.pc) t.regs)))
  | .fault f => .fault f
  | .refused r => .refused r

/-- A `STEP` that executes nothing: its result has `executed_index = none` (R92, R93). -/
def stepIdle (s : State) : State := s.respond (.stepped (stepResult none s.regs))

/-- `STEP()` (R91): a no-op on the empty Program (R92), the instruction at the cursor when there is one (R94), else the
auto-restart (R93). The last branch is taken at `pc = len`; the model takes it at `pc > len` too, which no run reaches
(R30; notes/assumptions/6.md). -/
def stepCommand (s : State) : Host.Outcome State Fault Refusal :=
  match s.prog with
  | [] => .next (stepIdle s)
  | first :: _ =>
    match s.prog[s.pc]? with
    | some i => stepExecuting i s
    | none =>
      match s.params.restartMode with
      | .resetOnly => .next (stepIdle s.restart)
      | .resetAndExecute => stepExecuting first s.restart

/-- The loop of `RUN` over the instructions from the cursor on: the state it ends in and the results of its steps (R95;
by structural recursion over the Program, 70_reset_and_hazards.md R130). -/
def runLoop : List Instr → State → Host.Outcome (State × List StepResult) Fault Refusal
  | [], s => .next (s, [])
  | i :: rest, s =>
    match executeAtCursor i s with
    | .next t =>
      match runLoop rest t with
      | .next (u, results) => .next (u, stepResult (some s.pc) t.regs :: results)
      | .fault f => .fault f
      | .refused r => .refused r
    | .fault f => .fault f
    | .refused r => .refused r

/-- `RUN()` (R95): `reset_all()` once and `pc <- 0`, then every instruction of the Program once; a no-op on the empty
Program. -/
def runCommand (s : State) : Host.Outcome State Fault Refusal :=
  match s.prog with
  | [] => .next (s.respond (.ran []))
  | _ :: _ =>
    match runLoop s.prog s.restart with
    | .next (t, results) => .next (t.respond (.ran results))
    | .fault f => .fault f
    | .refused r => .refused r

/-- `SNAPSHOT()` (R97): no state of the engine changes. -/
def snapshotCommand (s : State) : State := s.respond (.snapshot (snapshotOf s.regs))

/-! ### The command interface -/

/-- One command, as one atomic transition (R86). -/
def perform (c : Command) (s : State) : Host.Outcome State Fault Refusal :=
  match c with
  | .append arg => .next (appendCommand arg s)
  | .removeLast => .next (removeLastCommand s)
  | .step => stepCommand s
  | .run => runCommand s
  | .snapshot => .next (snapshotCommand s)

/-- The command the host issues next: the first of its list, or `STEP` when the list is empty (DESIGN CHOICE,
notes/assumptions/2.md). -/
def nextCommand (s : State) : Command :=
  match s.commands with
  | [] => .step
  | c :: _ => c

/-- The next command taken off the host's list and performed. -/
def performNext (s : State) : Host.Outcome State Fault Refusal :=
  perform (nextCommand s) (s.setCommands s.commands.tail)

/-- `s` with the instruction `i` at the cursor and `STEP` the next command. -/
def placeAtCursor (i : Instr) (s : State) : State :=
  ((s.setProg (s.prog.take s.pc ++ i :: s.prog.drop (s.pc + 1))).setPc (min s.pc s.prog.length)).setCommands
    (.step :: s.commands)

/-- `s` with the word of an instruction stored where the next step fetches. A word that decodes is placed at the cursor;
an illegal one is never stored (30_encoding.md R63), so the next step presents it to `APPEND` (notes/assumptions/5.md).
DESIGN CHOICE (notes/assumptions/15.md): a number that is no word of `nbits ≤ 16` bits, an input the spec does not have,
leaves the state as it is. -/
def placeWord (s : State) (nbits w : Nat) : State :=
  match decodeTableWord nbits w with
  | some i => placeAtCursor i s
  | none =>
    if nbits ≤ 16 ∧ w < 2 ^ nbits then s.setCommands (.append (.word (BitVec.ofNat 16 w)) :: s.commands) else s

/-! ### Cause codes -/

/-- The number of a result of `APPEND` (60_exceptions.md R103). -/
def appendCauseCode : Except AppendError Unit → Nat
  | .ok _ => 0
  | .error (.decode .unknownRegister) => 1
  | .error (.decode .invalidLiteral) => 2
  | .error (.decode .malformedLine) => 3
  | .error .programFull => 4

/-- The number of the execution fault (60_exceptions.md R103). -/
def faultCauseCode : Fault → Nat
  | .wideOperandUnspecified _ => 5

end Sys2Proof.Machine
end

