-- ==== Sys2Proof/Machine/Step.lean ====
section
/-! DEFINITION. One step of the machine is one host command (45_engine_commands.md R86). -/

namespace Sys2Proof.Machine

/-- One step: the host's next command, performed. -/
def step (s : State) : Host.Outcome State Fault Refusal := performNext s

/-- `s` with an instruction's word stored where `step` fetches its next instruction, so that the very next step runs it. -/
def State.withFetchWord (s : State) (nbits w : Nat) : State := placeWord s nbits w

end Sys2Proof.Machine
end

