-- ==== Sys2Proof/Safety.lean ====
section
/-! DEFINITION. The terms safety claims are stated in: the invariant of 10_state.md R30, the part of the state that is the
engine's own, and the condition under which no step can stop the machine (42_wide_operands.md R80). -/

namespace Sys2Proof.Machine

/-- The invariants of 10_state.md R30 that the types of `State` do not already give: items 2, 4 and 7. (Items 1 and 6
hold by type, item 3 is the aliasing law of R20, item 5 follows from items 2 and 4.) -/
structure State.Inv (s : State) : Prop where
  /-- The cursor lies in `[0, len]`. -/
  pc_le_len : s.pc ≤ s.prog.length
  /-- At the cursor 0 every byte register is 0. -/
  zero_at_start : s.pc = 0 → s.regs = Regs.zero
  /-- When `PROG_MAX` is a number, `len ≤ PROG_MAX`. -/
  within_capacity : ∀ n, s.params.progMax = some n → s.prog.length ≤ n

/-- The complete architectural state of one engine: registers, Program and cursor (10_state.md, introduction). -/
structure Engine where
  regs : Regs
  prog : List Instr
  pc : Nat
  deriving DecidableEq, Repr

/-- The architectural part of the state. -/
def State.engine (s : State) : Engine := { regs := s.regs, prog := s.prog, pc := s.pc }

/-- The instruction an `APPEND` would store names no wide register. -/
def AppendArg.byteOnly (arg : AppendArg) : Bool :=
  match decodeArg arg with
  | .ok i => !i.namesWide
  | .error _ => true

/-- The command appends no instruction that names a wide register. -/
def Command.byteOnly : Command → Bool
  | .append arg => arg.byteOnly
  | .removeLast | .step | .run | .snapshot => true

/-- No instruction of the Program names a wide register, and none that the host has still to append does. -/
def State.byteOnly (s : State) : Bool := s.prog.all (fun i => !i.namesWide) && s.commands.all Command.byteOnly

/-- A step from here cannot stop: wide operands have a meaning, or there are none (R80: "A program none of whose
instructions names a wide register never faults"). -/
def State.CannotStop (s : State) : Prop := s.params.wideOperandPolicy = .wide16 ∨ s.byteOnly = true

end Sys2Proof.Machine
end

