-- ==== Sys2Proof/Certificates/Slice0/Obligations.lean ====
section
/-! DEFINITION. The statements about the model. Each docstring names the rule of spec/ it formalises, or, where it rests
on a point the spec or the model decided, says so. Every statement holds for every value of the three open parameters
unless it names one in a hypothesis. -/

open Sys2Proof Sys2Proof.Machine

/-! ### Reset and the invariant -/

/-- 10_state.md section 8 and 70_reset_and_hazards.md section 1: the state after power-on reset, for every value of the
open parameters. That the Program starts empty is the spec's decision D3; which parameters `State.reset` has is the
model's choice (notes/assumptions/1.md). -/
def Obligations.ResetLeavesPowerOnState : Prop :=
  ∀ p : Params,
    (∀ r, readByte r (State.resetWith p).regs = 0) ∧ (∀ w, readWide w (State.resetWith p).regs = 0) ∧
    (State.resetWith p).pc = 0 ∧ (State.resetWith p).prog = [] ∧ (State.resetWith p).execState = .idle ∧
    (State.resetWith p).params = p ∧ State.reset = State.resetWith resetParams

/-- 10_state.md section 7 ("These hold after power-on reset"). -/
def Obligations.ResetMeetsTheInvariant : Prop := ∀ p : Params, (State.resetWith p).Inv

/-- 10_state.md section 7: the cursor stays in `[0, len]`, a cursor of 0 means zero registers, and the Program stays
within `PROG_MAX`, across every command from every state in which they hold. -/
def Obligations.EveryStepKeepsTheInvariant : Prop := ∀ s t : State, s.Inv → step s = .next t → t.Inv

/-- 00_scope.md section 3: the open parameters are fixed for an engine; no step changes them. -/
def Obligations.StepsNeverChangeTheParameters : Prop := ∀ s t : State, step s = .next t → t.params = s.params

/-! ### The register file -/

/-- 10_state.md section 3 (`read_byte`, `write_byte`): the written register reads back the value, every other byte
register and every wide view but the owner keeps its value. -/
def Obligations.ByteWriteReadsBack : Prop :=
  ∀ (r : ByteReg) (v : Byte) (x : Regs),
    readByte r (writeByte r v x) = v ∧
    (∀ r', r' ≠ r → readByte r' (writeByte r v x) = readByte r' x) ∧
    (∀ w, w ≠ owner r → readWide w (writeByte r v x) = readWide w x)

/-- 10_state.md section 3: the aliasing law, and its consequences (a) to (d), which the spec marks as derived from R14 and
R18. -/
def Obligations.WideViewsAliasTheirBytes : Prop :=
  ∀ (w : WideReg) (v : Byte) (x : Regs),
    (readWide w x).toNat = (readByte (hiByte w) x).toNat * 256 + (readByte (loByte w) x).toNat ∧
    (readWide w (writeByte (hiByte w) v x)).toNat = v.toNat * 256 + (readByte (loByte w) x).toNat ∧
    readByte (loByte w) (writeByte (hiByte w) v x) = readByte (loByte w) x ∧
    (readWide w (writeByte (loByte w) v x)).toNat = (readByte (hiByte w) x).toNat * 256 + v.toNat ∧
    readByte (hiByte w) (writeByte (loByte w) v x) = readByte (hiByte w) x ∧
    (∀ r, owner r ≠ w → readWide w (writeByte r v x) = readWide w x) ∧
    (readWide w x).toNat / 256 = (readByte (hiByte w) x).toNat ∧
    (readWide w x).toNat % 256 = (readByte (loByte w) x).toNat

/-- 10_state.md section 3: `reset_all` zeroes the 8 byte registers and touches neither the Program nor the cursor; that
every wide view then reads 0 the spec marks as derived from R14. -/
def Obligations.ResetAllZeroesTheRegisters : Prop :=
  ∀ s : State,
    (∀ r, readByte r s.resetAll.regs = 0) ∧ (∀ w, readWide w s.resetAll.regs = 0) ∧
    s.resetAll.prog = s.prog ∧ s.resetAll.pc = s.pc

/-! ### The six instructions with byte operands -/

/-- R69: `MOV rd, imm` completes from every state, with `x[rd] <- imm` and nothing else changed. -/
def Obligations.MovLiteralLoadsTheByte : Prop :=
  ∀ (rd : ByteReg) (imm : Byte) (s : State),
    exec (.movRI (.byte rd) imm) s = .next (s.setRegs (writeByte rd imm s.regs))

/-- R70: `MOV rd, rs` completes from every state, with `x[rd] <- x[rs]` and nothing else changed; `rd = rs` too. -/
def Obligations.MovRegisterCopiesTheByte : Prop :=
  ∀ (rd rs : ByteReg) (s : State),
    exec (.movRR (.byte rd) (.byte rs)) s = .next (s.setRegs (writeByte rd (readByte rs s.regs) s.regs))

/-- R72: `ADD rd, imm` completes from every state, with `x[rd] <- min(x[rd] + imm, 255)` and nothing else changed. -/
def Obligations.AddLiteralSaturatesAt255 : Prop :=
  ∀ (rd : ByteReg) (imm : Byte) (s : State),
    exec (.addRI (.byte rd) imm) s =
      .next (s.setRegs (writeByte rd
        (BitVec.ofNat 8 (min ((readByte rd s.regs).toNat + imm.toNat) 255)) s.regs))

/-- R73: `ADD rd, rs` completes from every state, with `x[rd] <- min(x[rd] + x[rs], 255)`, both reads before the
write, and nothing else changed. -/
def Obligations.AddRegisterSaturatesAt255 : Prop :=
  ∀ (rd rs : ByteReg) (s : State),
    exec (.addRR (.byte rd) (.byte rs)) s =
      .next (s.setRegs (writeByte rd
        (BitVec.ofNat 8 (min ((readByte rd s.regs).toNat + (readByte rs s.regs).toNat) 255)) s.regs))

/-- R74: `SUB rd, imm` completes from every state, with `x[rd] <- max(x[rd] - imm, 0)`, the difference over the
integers, and nothing else changed. -/
def Obligations.SubLiteralSaturatesAt0 : Prop :=
  ∀ (rd : ByteReg) (imm : Byte) (s : State),
    exec (.subRI (.byte rd) imm) s =
      .next (s.setRegs (writeByte rd
        (BitVec.ofInt 8 (max (((readByte rd s.regs).toNat : Int) - imm.toNat) 0)) s.regs))

/-- R75: `SUB rd, rs` completes from every state, with `x[rd] <- max(x[rd] - x[rs], 0)`, both reads before the write,
and nothing else changed. -/
def Obligations.SubRegisterSaturatesAt0 : Prop :=
  ∀ (rd rs : ByteReg) (s : State),
    exec (.subRR (.byte rd) (.byte rs)) s =
      .next (s.setRegs (writeByte rd
        (BitVec.ofInt 8 (max (((readByte rd s.regs).toNat : Int) - (readByte rs s.regs).toNat) 0)) s.regs))

/-- 40_mov.md section 1 (the frame of all six instructions with byte operands), and 42_wide_operands.md section 3 (decision
D16, the spec's own construction) for a byte destination with a wide source: when one completes, every byte register but
the destination, every wide view but the destination's owner, the Program, the cursor, the parameters and the command
interface are unchanged. -/
def Obligations.ByteDestinationFrame : Prop :=
  ∀ (i : Instr) (d : ByteReg) (s t : State), i.dest = .byte d → exec i s = .next t →
    (∀ r, r ≠ d → readByte r t.regs = readByte r s.regs) ∧
    (∀ w, w ≠ owner d → readWide w t.regs = readWide w s.regs) ∧
    t.prog = s.prog ∧ t.pc = s.pc ∧ t.params = s.params ∧ t.commands = s.commands ∧ t.response = s.response

/-- 42_wide_operands.md section 3 (decision D16; the frame of all six instructions, every form with a wide destination):
when one completes, every byte register outside the destination view, every other wide view, the Program, the cursor,
the parameters and the command interface are unchanged. -/
def Obligations.WideDestinationFrame : Prop :=
  ∀ (i : Instr) (d : WideReg) (s t : State), i.dest = .wide d → exec i s = .next t →
    (∀ r, owner r ≠ d → readByte r t.regs = readByte r s.regs) ∧
    (∀ w, w ≠ d → readWide w t.regs = readWide w s.regs) ∧
    t.prog = s.prog ∧ t.pc = s.pc ∧ t.params = s.params ∧ t.commands = s.commands ∧ t.response = s.response

/-! ### Arithmetic laws (41_add_sub.md section 3) -/

/-- Law 8: two `ADD`s of literals compose, and two `SUB`s do. -/
def Obligations.RepeatedAddsAndSubsCompose : Prop :=
  ∀ (d : ByteReg) (b₁ b₂ : Byte) (s : State),
    (∃ t u, exec (.addRI (.byte d) b₁) s = .next t ∧ exec (.addRI (.byte d) b₂) t = .next u ∧
      (readByte d u.regs).toNat = min ((readByte d s.regs).toNat + b₁.toNat + b₂.toNat) 255) ∧
    (∃ t u, exec (.subRI (.byte d) b₁) s = .next t ∧ exec (.subRI (.byte d) b₂) t = .next u ∧
      (readByte d u.regs).toNat = (readByte d s.regs).toNat - (b₁.toNat + b₂.toNat))

/-- Law 7: `ADD` then `SUB` of the same literal restores the destination exactly when the `ADD` did not saturate, and
leaves `255 - b` otherwise. -/
def Obligations.AddThenSubRestoresUnlessSaturated : Prop :=
  ∀ (d : ByteReg) (b : Byte) (s : State), ∃ t u,
    exec (.addRI (.byte d) b) s = .next t ∧ exec (.subRI (.byte d) b) t = .next u ∧
    (readByte d u.regs).toNat =
      (if (readByte d s.regs).toNat + b.toNat ≤ 255 then (readByte d s.regs).toNat else 255 - b.toNat)

/-- Law 9 and 70_reset_and_hazards.md section 2 (operands before write-back): `ADD r, r` doubles with saturation and
`SUB r, r` clears. -/
def Obligations.SameRegisterOperandsAreReadFirst : Prop :=
  ∀ (d : ByteReg) (s : State),
    (∃ t, exec (.addRR (.byte d) (.byte d)) s = .next t ∧
      (readByte d t.regs).toNat = min (2 * (readByte d s.regs).toNat) 255) ∧
    (∃ t, exec (.subRR (.byte d) (.byte d)) s = .next t ∧ readByte d t.regs = 0)

/-! ### Wide operands (42_wide_operands.md). The values under `wide16` are the spec's own construction (decision D16):
SMS gives no evidence for any of them. -/

/-- 42_wide_operands.md section 2 (decisions D15, D27): under the policy `fault` an instruction that names a wide
register stops with the cursor as its index, also when `STEP` reaches it; appending it is no fault. -/
def Obligations.WideOperandFaultsUnderFaultPolicy : Prop :=
  ∀ (i : Instr) (s : State), i.namesWide = true → s.params.wideOperandPolicy = .fault →
    exec i s = .fault (.wideOperandUnspecified s.pc) ∧
    (nextCommand s = .step → s.prog[s.pc]? = some i → step s = .fault (.wideOperandUnspecified s.pc)) ∧
    (s.isFull = false → ∃ t, perform (.append (.typed i)) s = .next t ∧
      t.response = some .appended ∧ t.prog = s.prog ++ [i])

/-- 42_wide_operands.md sections 2 and 3: an instruction completes exactly when it names no wide register or the policy is
`wide16`; no other condition stops one. That a wide operand stops under `fault` is decisions D15 and D27; that it completes
under `wide16` is decision D16, the spec's own construction. -/
def Obligations.OnlyWideOperandsCanStop : Prop :=
  ∀ (i : Instr) (s : State),
    (∃ t, exec i s = .next t) ↔ (i.namesWide = false ∨ s.params.wideOperandPolicy = .wide16)

/-- 42_wide_operands.md section 3 (decision D16), `MOV rd, rs` and `MOV rd, imm` that name a wide register: they
complete with `new = min(val(src), MAX(dest))` written to the destination. -/
def Obligations.WideMovClampsToTheDestination : Prop :=
  ∀ (i : Instr) (s : State), i.op = .mov → i.namesWide = true → s.params.wideOperandPolicy = .wide16 →
    exec i s = .next (s.setRegs (writeDest i.dest (min (srcValue i.src s.regs) (maxOf i.dest)) s.regs))

/-- 42_wide_operands.md section 3 (decision D16), `ADD rd, rs` and `ADD rd, imm` that name a wide register: they
complete with `new = min(cur(dest) + val(src), MAX(dest))` written to the destination. -/
def Obligations.WideAddSaturatesAtTheDestination : Prop :=
  ∀ (i : Instr) (s : State), i.op = .add → i.namesWide = true → s.params.wideOperandPolicy = .wide16 →
    exec i s = .next (s.setRegs (writeDest i.dest
      (min (readReg i.dest s.regs + srcValue i.src s.regs) (maxOf i.dest)) s.regs))

/-- 42_wide_operands.md section 3 (decision D16), `SUB rd, rs` and `SUB rd, imm` that name a wide register: they
complete with `new = max(cur(dest) - val(src), 0)` written to the destination. -/
def Obligations.WideSubSaturatesAtZero : Prop :=
  ∀ (i : Instr) (s : State), i.op = .sub → i.namesWide = true → s.params.wideOperandPolicy = .wide16 →
    exec i s = .next (s.setRegs (writeDest i.dest
      (max ((readReg i.dest s.regs : Int) - srcValue i.src s.regs) 0).toNat s.regs))

/-- 42_wide_operands.md section 3 (decision D16): operand values, the destination's maximum, and the write-back of a
value in its range. A byte or literal operand is zero-extended; a wide destination reads back the value, split into its
two bytes; no third register changes. -/
def Obligations.WideWriteBackSplitsIntoBytes : Prop :=
  (∀ (v : Byte) (r : ByteReg) (w : WideReg) (x : Regs),
    srcValue (.lit v) x = v.toNat ∧ srcValue (.reg (.byte r)) x = (readByte r x).toNat ∧
    srcValue (.reg (.wide w)) x = (readByte (hiByte w) x).toNat * 256 + (readByte (loByte w) x).toNat ∧
    readReg (.byte r) x = (readByte r x).toNat ∧
    readReg (.wide w) x = (readByte (hiByte w) x).toNat * 256 + (readByte (loByte w) x).toNat ∧
    maxOf (.byte r) = 255 ∧ maxOf (.wide w) = 65535) ∧
  (∀ (w : WideReg) (n : Nat) (x : Regs), n ≤ 65535 →
    readReg (.wide w) (writeDest (.wide w) n x) = n ∧
    (readByte (hiByte w) (writeDest (.wide w) n x)).toNat = n / 256 ∧
    (readByte (loByte w) (writeDest (.wide w) n x)).toNat = n % 256 ∧
    (∀ r, owner r ≠ w → readByte r (writeDest (.wide w) n x) = readByte r x)) ∧
  (∀ (d : ByteReg) (n : Nat) (x : Regs), n ≤ 255 →
    readReg (.byte d) (writeDest (.byte d) n x) = n ∧
    (∀ r, r ≠ d → readByte r (writeDest (.byte d) n x) = readByte r x))

/-! ### Host commands (45_engine_commands.md) -/

/-- 45_engine_commands.md section 3 (`STEP` at an instruction): when the next command is `STEP` and an instruction is at
the cursor, the step is `exec` of that instruction, then the cursor 1 further, and a result with the old cursor and the
registers after the write; if it was the last instruction, the state becomes `Completed`. Taking the command off the
host's list is the model's own (notes/assumptions/2.md). -/
def Obligations.StepRunsTheInstructionAtTheCursor : Prop :=
  ∀ (s : State) (i : Instr), nextCommand s = .step → s.prog[s.pc]? = some i →
    (step s = match exec i (s.setCommands s.commands.tail) with
      | .next t => .next ((t.setPc (s.pc + 1)).respond
          (.stepped { executedIndex := some s.pc, registerSnapshot := snapshotOf t.regs }))
      | .fault f => .fault f
      | .refused r => .refused r) ∧
    (∀ t, step s = .next t → s.pc + 1 = s.prog.length → t.execState = .completed)

/-- 30_encoding.md section 3 with 45_engine_commands.md section 3: a storage word placed where the machine fetches is
decoded, and the very next step is `exec` of the decoded instruction. Placing it is the model's own
(notes/assumptions/5.md). -/
def Obligations.StoredWordRunsAtTheNextStep : Prop :=
  ∀ (s : State) (w : StorageWord) (i : Instr), decodeWord w = .ok i →
    step (s.withFetchWord 16 w.toNat) =
      match exec i ((s.setProg (s.prog.take s.pc ++ i :: s.prog.drop (s.pc + 1))).setPc (min s.pc s.prog.length)) with
      | .next t => .next ((t.setPc (min s.pc s.prog.length + 1)).respond
          (.stepped { executedIndex := some (min s.pc s.prog.length), registerSnapshot := snapshotOf t.regs }))
      | .fault f => .fault f
      | .refused r => .refused r

/-- 45_engine_commands.md section 3 (`STEP` on the empty Program; the result's form is decision D19): nothing but the
result changes, and in a state that meets the invariant the snapshot is all zero. -/
def Obligations.StepOnTheEmptyProgramIsANoOp : Prop :=
  ∀ s : State, s.prog = [] →
    perform .step s =
      .next (s.respond (.stepped { executedIndex := none, registerSnapshot := snapshotOf s.regs })) ∧
    (s.Inv → ∀ e ∈ snapshotOf s.regs, e.dec = 0)

/-- 45_engine_commands.md section 3 (the auto-restart; `RESTART_MODE` is decision D17), for both values of the parameter:
under `reset_only` the step ends with zero registers, cursor 0 and no executed index; under `reset_and_execute` it is the
step of the restarted engine. -/
def Obligations.StepWhenCompletedRestarts : Prop :=
  ∀ s : State, s.prog ≠ [] → s.pc = s.prog.length →
    (s.params.restartMode = .resetOnly →
      perform .step s = .next (((s.setRegs Regs.zero).setPc 0).respond
        (.stepped { executedIndex := none, registerSnapshot := snapshotOf Regs.zero }))) ∧
    (s.params.restartMode = .resetAndExecute →
      perform .step s = perform .step ((s.setRegs Regs.zero).setPc 0))

/-- 45_engine_commands.md section 2: `APPEND` of each form of argument; the storage word as an argument is decision D29,
and `PROG_MAX` with its `ProgramFull` is decision D4. A decoder's error is the result and nothing changes; a decoded
instruction on a full Program fails with `ProgramFull` and nothing changes; otherwise it is stored last, the cursor is 0
and every register is 0. -/
def Obligations.AppendStoresAndResets : Prop :=
  ∀ (arg : AppendArg) (s : State),
    (∀ l, arg = .text l → decodeArg arg = decodeLine l) ∧ (∀ i, arg = .typed i → decodeArg arg = .ok i) ∧
    (∀ w, arg = .word w → decodeArg arg = decodeWord w) ∧
    (∀ e, decodeArg arg = .error e → perform (.append arg) s = .next (s.respond (.appendFailed (.decode e)))) ∧
    (∀ i n, decodeArg arg = .ok i → s.params.progMax = some n → s.prog.length = n →
      perform (.append arg) s = .next (s.respond (.appendFailed .programFull))) ∧
    (∀ i, decodeArg arg = .ok i → (∀ n, s.params.progMax = some n → s.prog.length < n) →
      perform (.append arg) s = .next
        { regs := Regs.zero, prog := s.prog ++ [i], pc := 0, params := s.params, commands := s.commands,
          response := some .appended })

/-- R105: a command that returns a failure has changed nothing of the engine: no register, not the Program, not the
cursor. -/
def Obligations.FailedAppendChangesNothing : Prop :=
  ∀ (c : Command) (s t : State) (e : AppendError), perform c s = .next t → t.response = some (.appendFailed e) →
    (∃ arg, c = .append arg) ∧ t.engine = s.engine ∧ t.params = s.params ∧ t.commands = s.commands

/-- 60_exceptions.md section 2 ("The engine keeps no memory of the error"): the step after a failed `APPEND` is the step
that would have been made had it never been issued. -/
def Obligations.FailedAppendIsForgotten : Prop :=
  ∀ (s t : State) (e : AppendError), step s = .next t → t.response = some (.appendFailed e) →
    step t = step (s.setCommands s.commands.tail)

/-- R88: `REMOVE_LAST` on the empty Program and on any other. -/
def Obligations.RemoveLastDropsTheLast : Prop :=
  ∀ s : State,
    (s.prog = [] → perform .removeLast s = .next (s.respond (.removed false))) ∧
    (∀ p i, s.prog = p ++ [i] → perform .removeLast s = .next
      { regs := Regs.zero, prog := p, pc := 0, params := s.params, commands := s.commands,
        response := some (.removed true) })

/-- R89: whatever step changes the Program discards all execution state; and (10_state.md section 4) it is an `APPEND` or a
`REMOVE_LAST`, which grows or shrinks the Program by its last instruction. -/
def Obligations.MutationDiscardsExecutionState : Prop :=
  ∀ s t : State, step s = .next t → t.prog ≠ s.prog →
    t.pc = 0 ∧ (∀ r, readByte r t.regs = 0) ∧ (∀ w, readWide w t.regs = 0) ∧ t.execState = .idle ∧
    (((∃ arg, nextCommand s = .append arg) ∧ ∃ i, t.prog = s.prog ++ [i]) ∨
     (nextCommand s = .removeLast ∧ ∃ i, s.prog = t.prog ++ [i]))

/-- 45_engine_commands.md section 3 (`RUN`; decisions D18, D20): on a non-empty Program that no wide operand stops, `RUN`
completes. From the restarted engine it executes `prog[0]`, `prog[1]`, .., each once and each on the state the one before
it left; the result of index `k` carries `k` and the registers just after the execution of `prog[k]`; the cursor ends at
`len`, in `Completed`. That wide operands have an effect under `wide16` is decision D16, the spec's own construction. -/
def Obligations.RunExecutesEveryInstructionOnce : Prop :=
  ∀ s : State, s.prog ≠ [] →
    (s.params.wideOperandPolicy = .wide16 ∨ ∀ i ∈ s.prog, i.namesWide = false) →
    ∃ (t : State) (results : List StepResult) (stateAt : Nat → State),
      perform .run s = .next t ∧ results.length = s.prog.length ∧
      stateAt 0 = (s.setRegs Regs.zero).setPc 0 ∧
      (∀ k i, s.prog[k]? = some i → ∃ u, exec i (stateAt k) = .next u ∧ stateAt (k + 1) = u.setPc (k + 1) ∧
        results[k]? = some { executedIndex := some k, registerSnapshot := snapshotOf u.regs }) ∧
      t = (stateAt s.prog.length).respond (.ran results) ∧
      t.prog = s.prog ∧ t.pc = s.prog.length ∧ t.execState = .completed

/-- 45_engine_commands.md section 3 and 70_reset_and_hazards.md section 2 (decision D18): `RUN` starts over whatever state
it is issued in; and on the empty Program it changes nothing but the result. -/
def Obligations.RunStartsOverFromAnyState : Prop :=
  ∀ (s : State) (x : Regs) (k : Nat),
    (s.prog ≠ [] → perform .run ((s.setRegs x).setPc k) = perform .run s) ∧
    (s.prog = [] → perform .run s = .next (s.respond (.ran [])))

/-- 42_wide_operands.md section 2 and 60_exceptions.md section 2 (decisions D15, D27): under the policy `fault`, `RUN`
stops at the first instruction of the Program that names a wide register. -/
def Obligations.RunStopsAtTheFirstWideOperand : Prop :=
  ∀ (s : State) (before after : List Instr) (i : Instr), s.params.wideOperandPolicy = .fault →
    s.prog = before ++ i :: after → (∀ j ∈ before, j.namesWide = false) → i.namesWide = true →
    perform .run s = .fault (.wideOperandUnspecified before.length)

/-- 45_engine_commands.md section 5 ("The end of a run"): `RUN`, when it completes, ends in the registers, Program and
cursor that single stepping from `Idle` reaches after exactly `len` steps. That a host with no commands left issues
`STEP`s is the model's own (notes/assumptions/2.md). -/
def Obligations.RunAgreesWithSingleSteps : Prop :=
  ∀ s t : State, s.prog ≠ [] → s.commands = [] → perform .run s = .next t →
    ∃ u : State, Host.Core.run Sys2Proof.core s.prog.length s.restart = .next u ∧ u.engine = t.engine

/-- 45_engine_commands.md section 5, the transition table: from a state that meets the invariant, the execution state and
the cursor after each command that completes, and the registers where the table gives them without an instruction's
effect. -/
def Obligations.CommandsFollowTheTransitionTable : Prop :=
  ∀ (c : Command) (s t : State), s.Inv → perform c s = .next t →
    match c with
    | .append _ =>
      (t.response = some .appended → t.execState = .idle ∧ t.pc = 0 ∧ t.regs = Regs.zero) ∧
      (t.response ≠ some .appended → t.execState = s.execState ∧ t.pc = s.pc ∧ t.regs = s.regs)
    | .removeLast => t.execState = .idle ∧ t.pc = 0 ∧ t.regs = Regs.zero
    | .step =>
      (s.prog = [] → t.execState = .idle ∧ t.pc = 0 ∧ t.regs = Regs.zero) ∧
      (s.execState = .idle → s.prog.length = 1 → t.execState = .completed ∧ t.pc = 1) ∧
      (s.execState = .idle → 2 ≤ s.prog.length → t.execState = .running ∧ t.pc = 1) ∧
      (s.execState = .running → s.pc + 1 < s.prog.length → t.execState = .running ∧ t.pc = s.pc + 1) ∧
      (s.execState = .running → s.pc + 1 = s.prog.length → t.execState = .completed ∧ t.pc = s.prog.length) ∧
      (s.execState = .completed → s.params.restartMode = .resetOnly →
        t.execState = .idle ∧ t.pc = 0 ∧ t.regs = Regs.zero) ∧
      (s.execState = .completed → s.params.restartMode = .resetAndExecute →
        t.execState = (if s.prog.length = 1 then .completed else .running) ∧ t.pc = 1)
    | .run =>
      (s.prog = [] → t.execState = .idle ∧ t.pc = 0 ∧ t.regs = Regs.zero) ∧
      (s.prog ≠ [] → t.execState = .completed ∧ t.pc = s.prog.length)
    | .snapshot => t.execState = s.execState ∧ t.pc = s.pc ∧ t.regs = s.regs

/-- 45_engine_commands.md section 4 (`SNAPSHOT`): the command changes nothing but the result. -/
def Obligations.SnapshotChangesNothing : Prop :=
  ∀ s : State, perform .snapshot s = .next (s.respond (.snapshot (snapshotOf s.regs)))

/-- 45_engine_commands.md section 4 (the forms of the strings are decision D21): the 12 names in order, each with its
current value, a binary string of 8 or 16 digits and a hexadecimal string of 2 or 4 upper-case digits that both spell the
value. -/
def Obligations.SnapshotSpellsEveryRegister : Prop :=
  ∀ x : Regs,
    (snapshotOf x).map SnapshotEntry.name =
      [.wide .ax, .byte .ah, .byte .al, .wide .bx, .byte .bh, .byte .bl,
       .wide .cx, .byte .ch, .byte .cl, .wide .dx, .byte .dh, .byte .dl] ∧
    ∀ e ∈ snapshotOf x,
      e.dec = (match e.name with | .byte r => (readByte r x).toNat | .wide w => (readWide w x).toNat) ∧
      e.bin.length = (match e.name with | .byte _ => 8 | .wide _ => 16) ∧
      e.hex.length = (match e.name with | .byte _ => 2 | .wide _ => 4) ∧
      (∀ c ∈ e.bin, c = '0' ∨ c = '1') ∧ (∀ c ∈ e.hex, c ∈ "0123456789ABCDEF".toList) ∧
      e.bin.foldl (fun n c => 2 * n + (if c = '1' then 1 else 0)) 0 = e.dec ∧
      e.hex.foldl (fun n c => 16 * n + "0123456789ABCDEF".toList.idxOf c) 0 = e.dec

/-! ### Runs of many commands -/

/-- 42_wide_operands.md sections 2 ("never faults") and 3 (decision D16, by which wide operands have a meaning under
`wide16`): where wide operands have a meaning, or neither the Program nor any command still to come brings one in, the next
step completes, and the same holds of the state it leads to. -/
def Obligations.StepsThatCannotStopStaySo : Prop :=
  ∀ s : State, s.CannotStop → ∃ t, step s = .next t ∧ t.CannotStop

/-- 42_wide_operands.md sections 2 ("never faults") and 3 (decision D16, by which wide operands have a meaning under
`wide16`): where wide operands have a meaning, or neither the Program nor any command still to come brings one in, every
number of steps completes. -/
def Obligations.WithoutWideFaultsEveryRunCompletes : Prop :=
  ∀ (s : State) (k : Nat), s.CannotStop → ∃ t : State, Host.Core.run Sys2Proof.core k s = .next t

/-- 70_reset_and_hazards.md section 1 ("Boot requirements"), with an unbounded `PROG_MAX`: from reset, appending the
instructions of any list one after the other leaves exactly that Program, with the cursor and the registers at 0. The list
of commands is the model's own (notes/assumptions/2.md). -/
def Obligations.AppendsFromResetBuildTheProgram : Prop :=
  ∀ (p : Params) (l : List Instr), p.progMax = none →
    ∃ t : State,
      Host.Core.run Sys2Proof.core l.length
        ((State.resetWith p).setCommands (l.map (fun i => Command.append (.typed i)))) = .next t ∧
      t.engine = { regs := Regs.zero, prog := l, pc := 0 } ∧ t.params = p ∧ t.commands = []

/-- 70_reset_and_hazards.md section 1 (the derived sentence on an empty engine): `REMOVE_LAST` until it returns `false`
leaves the engine as power-on reset does. The list of commands is the model's own (notes/assumptions/2.md). -/
def Obligations.RemovingUntilFalseEmptiesTheEngine : Prop :=
  ∀ s : State, s.Inv →
    ∃ t : State,
      Host.Core.run Sys2Proof.core (s.prog.length + 1)
        (s.setCommands (List.replicate (s.prog.length + 1) Command.removeLast)) = .next t ∧
      t.response = some (.removed false) ∧ t.engine = { regs := Regs.zero, prog := [], pc := 0 }

/-- 70_reset_and_hazards.md section 2 (a derived sentence on `RESTART_MODE`, decision D17): under `reset_only`, single
stepping a Program of `len` instructions has the period `len + 1`. That a host with no commands left issues `STEP`s is the
model's own (notes/assumptions/2.md); that wide operands have an effect under `wide16`, one of the two ways to meet
`CannotStop`, is decision D16. -/
def Obligations.ResetOnlySteppingHasPeriodLenPlusOne : Prop :=
  ∀ s : State, s.Inv → s.prog ≠ [] → s.pc = 0 → s.commands = [] → s.CannotStop →
    s.params.restartMode = .resetOnly →
    ∃ t : State, Host.Core.run Sys2Proof.core (s.prog.length + 1) s = .next t ∧ t.engine = s.engine

/-- 70_reset_and_hazards.md section 2 (a derived sentence on `RESTART_MODE`, decision D17): under `reset_and_execute`, the
state after the first instruction comes back after `len` more steps. That a host with no commands left issues `STEP`s is the
model's own (notes/assumptions/2.md); that wide operands have an effect under `wide16`, one of the two ways to meet
`CannotStop`, is decision D16. -/
def Obligations.ResetAndExecuteSteppingHasPeriodLen : Prop :=
  ∀ s u : State, s.Inv → s.prog ≠ [] → s.pc = 0 → s.commands = [] → s.CannotStop →
    s.params.restartMode = .resetAndExecute → step s = .next u →
    ∃ t : State, Host.Core.run Sys2Proof.core s.prog.length u = .next t ∧ t.engine = u.engine

/-! ### Storage words (30_encoding.md sections 3 and 4). The encoding is the spec's own choice (decisions D5 to D8). -/

/-- Decoding the encoding of any instruction gives it back. -/
def Obligations.DecodingInvertsEncoding : Prop := ∀ i : Instr, decodeWord (encode i) = .ok i

/-- Encoding what a word decodes to gives the word back. -/
def Obligations.EncodingInvertsDecoding : Prop :=
  ∀ (w : StorageWord) (i : Instr), decodeWord w = .ok i → encode i = w

/-- A word decodes exactly when it has none of the five defects. -/
def Obligations.LegalWordsAreThoseThatDecode : Prop :=
  ∀ w : StorageWord, wordLegal w = true ↔ ∃ i, decodeWord w = .ok i

/-- The error of an illegal word, in the order of the checks: the reserved operation, the reserved bit and the padding are
`MalformedLine`, and only then an unknown register code is `UnknownRegister`. -/
def Obligations.IllegalWordsReportTheirFirstDefect : Prop :=
  ∀ w : StorageWord,
    ((wordReservedOp w || wordReservedBit w || wordBadPadding w) = true → decodeWord w = .error .malformedLine) ∧
    ((wordReservedOp w || wordReservedBit w || wordBadPadding w) = false →
      (wordUnknownDest w || wordUnknownSource w) = true → decodeWord w = .error .unknownRegister)

/-- The opcode map: `w & mask = match` selects the row's instruction, with its register codes and its literal. -/
def Obligations.OpcodeRowsSelectTheirInstruction : Prop :=
  ∀ (w : StorageWord) (d : RegName), regOfCode (w.extractLsb' 8 4).toNat = some d →
    (∀ n, regOfCode (w.extractLsb' 0 4).toNat = some n →
      (w &&& 0xF0F0#16 = 0x0000#16 → decodeWord w = .ok (.movRR d n)) ∧
      (w &&& 0xF0F0#16 = 0x4000#16 → decodeWord w = .ok (.addRR d n)) ∧
      (w &&& 0xF0F0#16 = 0x8000#16 → decodeWord w = .ok (.subRR d n))) ∧
    (w &&& 0xF000#16 = 0x2000#16 → decodeWord w = .ok (.movRI d (w.extractLsb' 0 8))) ∧
    (w &&& 0xF000#16 = 0x6000#16 → decodeWord w = .ok (.addRI d (w.extractLsb' 0 8))) ∧
    (w &&& 0xF000#16 = 0xA000#16 → decodeWord w = .ok (.subRI d (w.extractLsb' 0 8)))

/-- Words written out from the encoding, one of each row (95_test_vectors.md sections 2.2 to 2.8). -/
def Obligations.WordsOfTheSpecDecode : Prop :=
  decodeWord 0b0010_0010_0011_0010#16 = .ok (.movRI (.byte .al) 50) ∧
  decodeWord 0b0000_0100_0000_0010#16 = .ok (.movRR (.byte .bh) (.byte .al)) ∧
  decodeWord 0b0110_0010_0000_1010#16 = .ok (.addRI (.byte .al) 10) ∧
  decodeWord 0b0100_1011_0000_1011#16 = .ok (.addRR (.byte .dl) (.byte .dl)) ∧
  decodeWord 0b1010_0010_0110_0100#16 = .ok (.subRI (.byte .al) 100) ∧
  decodeWord 0b1000_1000_0000_1010#16 = .ok (.subRR (.byte .cl) (.byte .dh)) ∧
  decodeWord 0x8900#16 = .ok (.subRR (.wide .dx) (.wide .ax))

/-! ### Text lines (30_encoding.md sections 2 and 5). The lexical details are the spec's own choice (decisions D11 to D14,
D28). -/

/-- Every line of the shape `WS* OP WS+ DEST WS* "," WS* SRC WS*`, with or without one line terminator, whose first two
tokens are a mnemonic and a register name and whose third is any token that is classified as a source operand (a literal
with leading zeros among them), decodes to that instruction. -/
def Obligations.LinesOfTheGrammarDecode : Prop :=
  ∀ (line tok : Line) (o : Op) (d : RegName) (src : Src),
    HasShape line o.text d.text tok → classifySrc tok = .ok src → decodeLine line = .ok (mkInstr o d src)

/-- The converse: a line that decodes has that shape, with the mnemonic and the destination of the instruction it decodes
to and a token that is classified as its source. -/
def Obligations.OnlyLinesOfTheGrammarDecode : Prop :=
  ∀ (line : Line) (i : Instr), decodeLine line = .ok i →
    ∃ tok, HasShape line i.op.text i.dest.text tok ∧ classifySrc tok = .ok i.src

/-- The error of every refused line, in the order of the checks (60_exceptions.md section 2, decision D10): a refused
character or another shape is `MalformedLine`; then an unknown mnemonic is `MalformedLine`, whatever the operands; then an
unknown destination is `UnknownRegister`, whatever the source; then the classification of the source decides. -/
def Obligations.RefusedLinesReportTheirFirstDefect : Prop :=
  ∀ line : Line,
    ((¬ ∃ op dest src, HasShape line op dest src) → decodeLine line = .error .malformedLine) ∧
    (∀ op dest src, HasShape line op dest src → (∀ o : Op, o.text ≠ op) → decodeLine line = .error .malformedLine) ∧
    (∀ (o : Op) dest src, HasShape line o.text dest src → (∀ n : RegName, n.text ≠ dest) →
      decodeLine line = .error .unknownRegister) ∧
    (∀ (o : Op) (d : RegName) src e, HasShape line o.text d.text src → classifySrc src = .error e →
      decodeLine line = .error e)

/-- The first character decides how a source token is classified (decision D11): a letter or `_` means a name, which is
one of the 12 or an `UnknownRegister`; a character that starts neither a name nor a number makes a `MalformedLine`. (Digits
and signs: LiteralTokensAreDecimalUpTo255.) -/
def Obligations.FirstCharacterClassifiesTheSource : Prop :=
  ∀ (c : Char) (rest : Line),
    (('A' ≤ c ∧ c ≤ 'Z') ∨ ('a' ≤ c ∧ c ≤ 'z') ∨ c = '_' →
      (∀ n : RegName, n.text = c :: rest → classifySrc (c :: rest) = .ok (.reg n)) ∧
      ((∀ n : RegName, n.text ≠ c :: rest) → classifySrc (c :: rest) = .error .unknownRegister)) ∧
    (¬ ('A' ≤ c ∧ c ≤ 'Z') ∧ ¬ ('a' ≤ c ∧ c ≤ 'z') ∧ c ≠ '_' ∧ ¬ ('0' ≤ c ∧ c ≤ '9') ∧ c ≠ '+' ∧ c ≠ '-' →
      classifySrc (c :: rest) = .error .malformedLine)

/-- The canonical printed form of any instruction decodes back to it. -/
def Obligations.PrintedInstructionsDecodeBack : Prop := ∀ i : Instr, decodeLine (printInstr i) = .ok i

/-- A source token that begins with a digit or a sign is a literal exactly when it holds decimal digits only and the number
they spell is at most 255, leading zeros allowed; otherwise it is an `InvalidLiteral`. -/
def Obligations.LiteralTokensAreDecimalUpTo255 : Prop :=
  ∀ (c : Char) (rest : Line), (isDecimalDigit c = true ∨ c = '+' ∨ c = '-') →
    classifySrc (c :: rest) =
      (if (∀ d ∈ c :: rest, '0' ≤ d ∧ d ≤ '9') ∧
          Nat.ofDigits 10 ((c :: rest).reverse.map (fun d => d.toNat - '0'.toNat)) ≤ 255
       then .ok (.lit (BitVec.ofNat 8 (Nat.ofDigits 10 ((c :: rest).reverse.map (fun d => d.toNat - '0'.toNat)))))
       else .error .invalidLiteral)

/-- Rejected lines of 95_test_vectors.md section 2.7, each with the error of the check that decides it (60_exceptions.md
section 2). -/
def Obligations.RejectedLinesReportTheirError : Prop :=
  decodeLine "ADD AL, 300".toList = .error .invalidLiteral ∧
  decodeLine "MOV AL,+5".toList = .error .invalidLiteral ∧
  decodeLine "MOV ZZ,300".toList = .error .unknownRegister ∧
  decodeLine "MOV AL,ZZ".toList = .error .unknownRegister ∧
  decodeLine "MOV AL,al".toList = .error .unknownRegister ∧
  decodeLine "FOO ZZ,300".toList = .error .malformedLine ∧
  decodeLine "ADD AL 300".toList = .error .malformedLine ∧
  decodeLine "MOV AL,#5".toList = .error .malformedLine ∧
  decodeLine "MOV AL,5\n\n".toList = .error .malformedLine

/-! ### Cause codes -/

/-- 60_exceptions.md section 1, the numbers of the results of `APPEND` and of the execution fault (decision D9). -/
def Obligations.CauseCodesAreNumbered : Prop :=
  appendCauseCode (.ok ()) = 0 ∧ appendCauseCode (.error (.decode .unknownRegister)) = 1 ∧
  appendCauseCode (.error (.decode .invalidLiteral)) = 2 ∧ appendCauseCode (.error (.decode .malformedLine)) = 3 ∧
  appendCauseCode (.error .programFull) = 4 ∧ (∀ k, faultCauseCode (.wideOperandUnspecified k) = 5)
end

