-- ==== Sys2Proof/Laws/State.lean ====
section
/-! SUPPORT. One lemma per field of `State` per update, so that no later proof unfolds a record update. -/

namespace Sys2Proof.Machine

section
variable (s : State)

@[simp] theorem State.setRegs_regs (x : Regs) : (s.setRegs x).regs = x := rfl
@[simp] theorem State.setRegs_prog (x : Regs) : (s.setRegs x).prog = s.prog := rfl
@[simp] theorem State.setRegs_pc (x : Regs) : (s.setRegs x).pc = s.pc := rfl
@[simp] theorem State.setRegs_params (x : Regs) : (s.setRegs x).params = s.params := rfl
@[simp] theorem State.setRegs_commands (x : Regs) : (s.setRegs x).commands = s.commands := rfl
@[simp] theorem State.setRegs_response (x : Regs) : (s.setRegs x).response = s.response := rfl

@[simp] theorem State.setPc_regs (n : Nat) : (s.setPc n).regs = s.regs := rfl
@[simp] theorem State.setPc_prog (n : Nat) : (s.setPc n).prog = s.prog := rfl
@[simp] theorem State.setPc_pc (n : Nat) : (s.setPc n).pc = n := rfl
@[simp] theorem State.setPc_params (n : Nat) : (s.setPc n).params = s.params := rfl
@[simp] theorem State.setPc_commands (n : Nat) : (s.setPc n).commands = s.commands := rfl
@[simp] theorem State.setPc_response (n : Nat) : (s.setPc n).response = s.response := rfl

@[simp] theorem State.setProg_regs (p : List Instr) : (s.setProg p).regs = s.regs := rfl
@[simp] theorem State.setProg_prog (p : List Instr) : (s.setProg p).prog = p := rfl
@[simp] theorem State.setProg_pc (p : List Instr) : (s.setProg p).pc = s.pc := rfl
@[simp] theorem State.setProg_params (p : List Instr) : (s.setProg p).params = s.params := rfl
@[simp] theorem State.setProg_commands (p : List Instr) : (s.setProg p).commands = s.commands := rfl
@[simp] theorem State.setProg_response (p : List Instr) : (s.setProg p).response = s.response := rfl

@[simp] theorem State.setCommands_regs (cs : List Command) : (s.setCommands cs).regs = s.regs := rfl
@[simp] theorem State.setCommands_prog (cs : List Command) : (s.setCommands cs).prog = s.prog := rfl
@[simp] theorem State.setCommands_pc (cs : List Command) : (s.setCommands cs).pc = s.pc := rfl
@[simp] theorem State.setCommands_params (cs : List Command) : (s.setCommands cs).params = s.params := rfl
@[simp] theorem State.setCommands_commands (cs : List Command) : (s.setCommands cs).commands = cs := rfl
@[simp] theorem State.setCommands_response (cs : List Command) : (s.setCommands cs).response = s.response := rfl

@[simp] theorem State.respond_regs (r : Response) : (s.respond r).regs = s.regs := rfl
@[simp] theorem State.respond_prog (r : Response) : (s.respond r).prog = s.prog := rfl
@[simp] theorem State.respond_pc (r : Response) : (s.respond r).pc = s.pc := rfl
@[simp] theorem State.respond_params (r : Response) : (s.respond r).params = s.params := rfl
@[simp] theorem State.respond_commands (r : Response) : (s.respond r).commands = s.commands := rfl
@[simp] theorem State.respond_response (r : Response) : (s.respond r).response = some r := rfl

@[simp] theorem State.resetAll_regs : (s.resetAll).regs = Regs.zero := rfl
@[simp] theorem State.resetAll_prog : (s.resetAll).prog = s.prog := rfl
@[simp] theorem State.resetAll_pc : (s.resetAll).pc = s.pc := rfl
@[simp] theorem State.resetAll_params : (s.resetAll).params = s.params := rfl
@[simp] theorem State.resetAll_commands : (s.resetAll).commands = s.commands := rfl
@[simp] theorem State.resetAll_response : (s.resetAll).response = s.response := rfl

@[simp] theorem State.restart_regs : (s.restart).regs = Regs.zero := rfl
@[simp] theorem State.restart_prog : (s.restart).prog = s.prog := rfl
@[simp] theorem State.restart_pc : (s.restart).pc = 0 := rfl
@[simp] theorem State.restart_params : (s.restart).params = s.params := rfl
@[simp] theorem State.restart_commands : (s.restart).commands = s.commands := rfl
@[simp] theorem State.restart_response : (s.restart).response = s.response := rfl

@[simp] theorem State.reject_regs (e : AppendError) : (s.reject e).regs = s.regs := rfl
@[simp] theorem State.reject_prog (e : AppendError) : (s.reject e).prog = s.prog := rfl
@[simp] theorem State.reject_pc (e : AppendError) : (s.reject e).pc = s.pc := rfl
@[simp] theorem State.reject_params (e : AppendError) : (s.reject e).params = s.params := rfl
@[simp] theorem State.reject_commands (e : AppendError) : (s.reject e).commands = s.commands := rfl
@[simp] theorem State.reject_response (e : AppendError) : (s.reject e).response = some (.appendFailed e) := rfl

@[simp] theorem State.setRegs_engine (x : Regs) : (s.setRegs x).engine = ⟨x, s.prog, s.pc⟩ := rfl
@[simp] theorem State.setPc_engine (n : Nat) : (s.setPc n).engine = ⟨s.regs, s.prog, n⟩ := rfl
@[simp] theorem State.setCommands_engine (cs : List Command) : (s.setCommands cs).engine = s.engine := rfl
@[simp] theorem State.respond_engine (r : Response) : (s.respond r).engine = s.engine := rfl
@[simp] theorem State.reject_engine (e : AppendError) : (s.reject e).engine = s.engine := rfl
@[simp] theorem State.respond_execState (r : Response) : (s.respond r).execState = s.execState := rfl
@[simp] theorem State.reject_execState (e : AppendError) : (s.reject e).execState = s.execState := rfl
@[simp] theorem State.setCommands_execState (cs : List Command) : (s.setCommands cs).execState = s.execState := rfl
@[simp] theorem State.restart_execState : s.restart.execState = .idle := if_pos (.inr rfl)
@[simp] theorem State.restart_engine : s.restart.engine = ⟨Regs.zero, s.prog, 0⟩ := rfl

end

@[simp] theorem State.resetWith_regs (p : Params) : (State.resetWith p).regs = Regs.zero := rfl
@[simp] theorem State.resetWith_prog (p : Params) : (State.resetWith p).prog = [] := rfl
@[simp] theorem State.resetWith_pc (p : Params) : (State.resetWith p).pc = 0 := rfl
@[simp] theorem State.resetWith_params (p : Params) : (State.resetWith p).params = p := rfl
@[simp] theorem State.resetWith_commands (p : Params) : (State.resetWith p).commands = [] := rfl
@[simp] theorem State.resetWith_response (p : Params) : (State.resetWith p).response = none := rfl

end Sys2Proof.Machine
end

