-- ==== Sys2Proof/Laws/Alu.lean ====
section
/-! SUPPORT. What the ALU computes, as minima and truncated differences of naturals (41_add_sub.md R77 law 1). -/

namespace Sys2Proof.Machine

/-- Clamping a sum of naturals is a minimum; the lower bound never binds. -/
theorem clamp_add (a b hi : Nat) : clamp ((a : Int) + b) 0 hi = (min (a + b) hi : Nat) := by
  unfold clamp; split <;> [omega; (split <;> omega)]

/-- Clamping a difference of naturals `a ≤ hi` is the truncated difference; the upper bound never binds. -/
theorem clamp_sub {a hi : Nat} (h : a ≤ hi) (b : Nat) : clamp ((a : Int) - b) 0 hi = (a - b : Nat) := by
  unfold clamp; split <;> [omega; (split <;> omega)]

@[simp] theorem aluByte_mov (a b : Byte) : aluByte .mov a b = b := rfl

theorem aluByte_add (a b : Byte) : aluByte .add a b = BitVec.ofNat 8 (min (a.toNat + b.toNat) 255) := by
  have h := clamp_add a.toNat b.toNat 255
  simp only [aluByte]
  rw [show (255 : Int) = ((255 : Nat) : Int) from rfl, h, BitVec.ofInt_natCast]

theorem aluByte_sub (a b : Byte) : aluByte .sub a b = BitVec.ofNat 8 (a.toNat - b.toNat) := by
  have hlt := a.isLt
  have h := clamp_sub (a := a.toNat) (hi := 255) (by omega) b.toNat
  simp only [aluByte]
  rw [show (255 : Int) = ((255 : Nat) : Int) from rfl, h, BitVec.ofInt_natCast]

theorem aluByte_add_toNat (a b : Byte) : (aluByte .add a b).toNat = min (a.toNat + b.toNat) 255 := by
  rw [aluByte_add, BitVec.toNat_ofNat]; omega

theorem aluByte_sub_toNat (a b : Byte) : (aluByte .sub a b).toNat = a.toNat - b.toNat := by
  have := a.isLt
  rw [aluByte_sub, BitVec.toNat_ofNat]; omega

theorem aluWide_mov (hi a b : Nat) : aluWide .mov hi a b = min b hi := rfl

theorem aluWide_add (hi a b : Nat) : aluWide .add hi a b = min (a + b) hi := by
  simp only [aluWide, clamp_add, Int.toNat_natCast]

theorem aluWide_sub {hi a : Nat} (h : a ≤ hi) (b : Nat) : aluWide .sub hi a b = a - b := by
  simp only [aluWide, clamp_sub h, Int.toNat_natCast]

/-- The result never leaves `[0, MAX]`. -/
theorem aluWide_le (op : Op) (hi a b : Nat) : aluWide op hi a b ≤ hi := by
  cases op
  · rw [aluWide_mov]; omega
  · rw [aluWide_add]; omega
  · simp only [aluWide, clamp]; split <;> [omega; (split <;> omega)]

end Sys2Proof.Machine
end

