-- ==== Sys2Proof/Laws/Regs.lean ====
section
/-! SUPPORT. The laws of the register file's ports: read after write, and what a write does to the wide views. -/

namespace Sys2Proof.Machine

@[simp] theorem owner_hiByte (w : WideReg) : owner (hiByte w) = w := by cases w <;> rfl

@[simp] theorem owner_loByte (w : WideReg) : owner (loByte w) = w := by cases w <;> rfl

theorem hiByte_ne_loByte (w w' : WideReg) : hiByte w ≠ loByte w' := by cases w <;> cases w' <;> decide

theorem eq_hiByte_or_loByte (r : ByteReg) : r = hiByte (owner r) ∨ r = loByte (owner r) := by
  cases r <;> first | exact .inl rfl | exact .inr rfl

@[simp] theorem readByte_zero (r : ByteReg) : readByte r Regs.zero = 0 := by cases r <;> rfl

@[simp] theorem readByte_writeByte_same (r : ByteReg) (v : Byte) (x : Regs) : readByte r (writeByte r v x) = v := by
  cases r <;> rfl

theorem readByte_writeByte_other {r r' : ByteReg} (h : r ≠ r') (v : Byte) (x : Regs) :
    readByte r (writeByte r' v x) = readByte r x := by
  cases r <;> cases r' <;> first | rfl | exact absurd rfl h

theorem readByte_writeByte (r r' : ByteReg) (v : Byte) (x : Regs) :
    readByte r (writeByte r' v x) = if r = r' then v else readByte r x := by
  split
  · next h => rw [h, readByte_writeByte_same]
  · next h => exact readByte_writeByte_other h v x

/-- The value of a wide view is `high*256 + low` (10_state.md R14). -/
theorem readWide_toNat (w : WideReg) (x : Regs) :
    (readWide w x).toNat = (readByte (hiByte w) x).toNat * 256 + (readByte (loByte w) x).toNat := by
  have h := (readByte (loByte w) x).isLt
  rw [readWide, BitVec.toNat_append, ← Nat.shiftLeft_add_eq_or_of_lt h, Nat.shiftLeft_eq]

@[simp] theorem readWide_zero (w : WideReg) : readWide w Regs.zero = 0 := by cases w <;> rfl

/-- A byte write leaves every view but its owner alone. -/
theorem readWide_writeByte_other {w : WideReg} {r : ByteReg} (h : w ≠ owner r) (v : Byte) (x : Regs) :
    readWide w (writeByte r v x) = readWide w x := by
  have hhi : hiByte w ≠ r := fun e => h (by rw [← e, owner_hiByte])
  have hlo : loByte w ≠ r := fun e => h (by rw [← e, owner_loByte])
  rw [readWide, readWide, readByte_writeByte_other hhi, readByte_writeByte_other hlo]

/-- What `writeWide` leaves in the high byte of its view. -/
theorem readByte_hi_writeWide (w : WideReg) (n : Nat) (x : Regs) :
    readByte (hiByte w) (writeWide w n x) = BitVec.ofNat 8 (n / 256) := by
  rw [writeWide, readByte_writeByte_other (hiByte_ne_loByte w w), readByte_writeByte_same]

/-- What `writeWide` leaves in the low byte of its view. -/
theorem readByte_lo_writeWide (w : WideReg) (n : Nat) (x : Regs) :
    readByte (loByte w) (writeWide w n x) = BitVec.ofNat 8 (n % 256) := by
  rw [writeWide, readByte_writeByte_same]

/-- `writeWide` leaves every byte register of another view alone. -/
theorem readByte_writeWide_other {r : ByteReg} {w : WideReg} (h : owner r ≠ w) (n : Nat) (x : Regs) :
    readByte r (writeWide w n x) = readByte r x := by
  have hhi : r ≠ hiByte w := fun e => h (by rw [e, owner_hiByte])
  have hlo : r ≠ loByte w := fun e => h (by rw [e, owner_loByte])
  rw [writeWide, readByte_writeByte_other hlo, readByte_writeByte_other hhi]

/-- `writeWide` leaves every other view alone. -/
theorem readWide_writeWide_other {w w' : WideReg} (h : w ≠ w') (n : Nat) (x : Regs) :
    readWide w (writeWide w' n x) = readWide w x := by
  rw [readWide, readWide, readByte_writeWide_other (by rw [owner_hiByte]; exact h),
    readByte_writeWide_other (by rw [owner_loByte]; exact h)]

end Sys2Proof.Machine
end

