-- ==== Sys2Proof/Laws/Execute.lean ====
section
/-! SUPPORT. Everything `exec` can do, said once: it is `Execute` of the typed triple, it changes registers only, it
writes the destination only, and it stops exactly on a wide operand under the policy `fault`. -/

namespace Sys2Proof.Machine

/-- Every meaning is `Execute` of the instruction's typed triple (40_mov.md R68). -/
theorem exec_eq_execute (i : Instr) (s : State) : exec i s = execute i.op i.dest i.src s := by cases i <;> rfl

/-- `Execute` with byte operands only: the literal source. -/
theorem execute_byte_lit (op : Op) (d : ByteReg) (v : Byte) (s : State) :
    execute op (.byte d) (.lit v) s =
      .next (s.setRegs (writeByte d (aluByte op (readByte d s.regs) v) s.regs)) := rfl

/-- `Execute` with byte operands only: the register source. -/
theorem execute_byte_reg (op : Op) (d r : ByteReg) (s : State) :
    execute op (.byte d) (.reg (.byte r)) s =
      .next (s.setRegs (writeByte d (aluByte op (readByte d s.regs) (readByte r s.regs)) s.regs)) := rfl

/-- `Execute` of an instruction that names a wide register. -/
theorem exec_of_namesWide {i : Instr} (h : i.namesWide = true) (s : State) :
    exec i s = executeWide i.op i.dest i.src s := by
  rw [exec_eq_execute]
  cases hd : i.dest with
  | wide w => rfl
  | byte d =>
    cases hs : i.src with
    | lit v => simp [Instr.namesWide, RegName.isWide, hd, hs] at h
    | reg n =>
      cases n with
      | byte r => simp [Instr.namesWide, RegName.isWide, hd, hs] at h
      | wide w => rfl

/-- A wide operand under the policy `fault` stops (42_wide_operands.md R80). -/
theorem exec_fault {i : Instr} {s : State} (h : i.namesWide = true) (hp : s.params.wideOperandPolicy = .fault) :
    exec i s = .fault (.wideOperandUnspecified s.pc) := by
  rw [exec_of_namesWide h, executeWide, hp]

/-- A wide operand under the policy `wide16` runs (R81 to R85). -/
theorem exec_wide16 {i : Instr} {s : State} (h : i.namesWide = true) (hp : s.params.wideOperandPolicy = .wide16) :
    exec i s = .next (s.setRegs (writeDest i.dest
      (aluWide i.op (maxOf i.dest) (readReg i.dest s.regs) (srcValue i.src s.regs)) s.regs)) := by
  rw [exec_of_namesWide h, executeWide, hp]

/-- An instruction that names no wide register runs. -/
theorem exec_byteOnly {i : Instr} (h : i.namesWide = false) (s : State) :
    ∃ d v, i.dest = .byte d ∧ exec i s = .next (s.setRegs (writeByte d v s.regs)) := by
  rw [exec_eq_execute]
  cases hd : i.dest with
  | wide w => simp [Instr.namesWide, RegName.isWide, hd] at h
  | byte d =>
    cases hs : i.src with
    | lit v => exact ⟨d, _, rfl, rfl⟩
    | reg n =>
      cases n with
      | byte r => exact ⟨d, _, rfl, rfl⟩
      | wide w => simp [Instr.namesWide, RegName.isWide, hd, hs] at h

/-- What a completing instruction does: the registers after it, all the rest unchanged, and only the destination
written. -/
theorem exec_next {i : Instr} {s t : State} (h : exec i s = .next t) :
    (∃ d v, i.dest = .byte d ∧ t = s.setRegs (writeByte d v s.regs)) ∨
    (∃ w n, i.dest = .wide w ∧ n ≤ 65535 ∧ t = s.setRegs (writeWide w n s.regs)) := by
  cases hw : i.namesWide with
  | false =>
    obtain ⟨d, v, hd, he⟩ := exec_byteOnly hw s
    rw [he] at h; cases h
    exact .inl ⟨d, v, hd, rfl⟩
  | true =>
    cases hp : s.params.wideOperandPolicy with
    | fault => rw [exec_fault hw hp] at h; cases h
    | wide16 =>
      rw [exec_wide16 hw hp] at h; cases h
      cases hd : i.dest with
      | byte d => exact .inl ⟨d, _, rfl, rfl⟩
      | wide w => exact .inr ⟨w, _, rfl, aluWide_le .., rfl⟩

/-- A completing instruction changes registers only (20_memory.md R44). -/
theorem exec_eq_setRegs {i : Instr} {s t : State} (h : exec i s = .next t) : ∃ x, t = s.setRegs x := by
  obtain ⟨_, _, -, rfl⟩ | ⟨_, _, -, -, rfl⟩ := exec_next h <;> exact ⟨_, rfl⟩

/-- What an instruction does depends on the registers and the parameters alone: not on the Program, the cursor or the
command interface. -/
theorem exec_of_same_regs {i : Instr} {s t : State} {x : Regs} (hr : t.regs = s.regs) (hp : t.params = s.params)
    (h : exec i s = .next (s.setRegs x)) : exec i t = .next (t.setRegs x) := by
  have key : ∀ u : State, u.regs = s.regs → u.params = s.params →
      (exec i u = match exec i s with
        | .next v => .next (u.setRegs v.regs)
        | .fault _ => .fault (.wideOperandUnspecified u.pc)
        | .refused r => .refused r) := by
    intro u hr hp
    rw [exec_eq_execute, exec_eq_execute]
    cases i.dest with
    | wide w =>
      simp only [execute, executeWide, hp]
      cases s.params.wideOperandPolicy <;> simp [hr]
    | byte d =>
      cases i.src with
      | lit v => simp [execute, executeByte, hr]
      | reg n =>
        cases n with
        | byte r => simp [execute, executeByte, hr]
        | wide w =>
          simp only [execute, executeWide, hp]
          cases s.params.wideOperandPolicy <;> simp [hr]
  rw [key t hr hp, h]; rfl

/-- The one way an instruction stops. -/
theorem exec_cases (i : Instr) (s : State) :
    (∃ x, exec i s = .next (s.setRegs x)) ∨
    (i.namesWide = true ∧ s.params.wideOperandPolicy = .fault ∧ exec i s = .fault (.wideOperandUnspecified s.pc)) := by
  cases hw : i.namesWide with
  | false => obtain ⟨d, v, -, he⟩ := exec_byteOnly hw s; exact .inl ⟨_, he⟩
  | true =>
    cases hp : s.params.wideOperandPolicy with
    | fault => exact .inr ⟨rfl, rfl, exec_fault hw hp⟩
    | wide16 => exact .inl ⟨_, exec_wide16 hw hp⟩

end Sys2Proof.Machine
end

