-- ==== Sys2Proof/Laws/Commands.lean ====
section
/-! SUPPORT. Everything a command can do, said once: one inversion lemma per command, and one for a whole step. -/

namespace Sys2Proof.Machine

/-- Executing at the cursor changes registers and moves the cursor by exactly 1 (45_engine_commands.md R94). -/
theorem executeAtCursor_next {i : Instr} {s t : State} (h : executeAtCursor i s = .next t) :
    ∃ x, exec i s = .next (s.setRegs x) ∧ t = (s.setRegs x).setPc (s.pc + 1) := by
  rw [executeAtCursor] at h
  obtain ⟨x, he⟩ | ⟨-, -, he⟩ := exec_cases i s <;> rw [he] at h <;> cases h
  exact ⟨x, he, rfl⟩

/-- Executing at the cursor stops only as `exec` does. -/
theorem executeAtCursor_cases (i : Instr) (s : State) :
    (∃ x, executeAtCursor i s = .next ((s.setRegs x).setPc (s.pc + 1))) ∨
    (i.namesWide = true ∧ s.params.wideOperandPolicy = .fault ∧
      executeAtCursor i s = .fault (.wideOperandUnspecified s.pc)) := by
  obtain ⟨x, he⟩ | ⟨hw, hp, he⟩ := exec_cases i s
  · exact .inl ⟨x, by rw [executeAtCursor, he]⟩
  · exact .inr ⟨hw, hp, by rw [executeAtCursor, he]⟩

/-- The executing part of `STEP`. -/
theorem stepExecuting_next {i : Instr} {s t : State} (h : stepExecuting i s = .next t) :
    ∃ x, exec i s = .next (s.setRegs x) ∧
      t = ((s.setRegs x).setPc (s.pc + 1)).respond (.stepped (stepResult (some s.pc) x)) := by
  rw [stepExecuting] at h
  cases he : executeAtCursor i s with
  | next u =>
    obtain ⟨x, hx, rfl⟩ := executeAtCursor_next he
    rw [he] at h; cases h
    exact ⟨x, hx, rfl⟩
  | fault f => rw [he] at h; cases h
  | refused r => rw [he] at h; cases h

/-- `STEP` with an instruction at the cursor executes it (R94). -/
theorem stepCommand_at_cursor {s : State} {i : Instr} (h : s.prog[s.pc]? = some i) :
    stepCommand s = stepExecuting i s := by
  rw [stepCommand]
  cases hp : s.prog with
  | nil => rw [hp] at h; simp at h
  | cons a l => dsimp only; rw [← hp, h]

/-- What `STEP` can do: nothing, the instruction at the cursor, or the restart with or without `prog[0]` (R91). -/
theorem stepCommand_next {s t : State} (h : stepCommand s = .next t) :
    (s.prog = [] ∧ t = stepIdle s) ∨
    (∃ i, s.prog[s.pc]? = some i ∧ stepExecuting i s = .next t) ∨
    (s.prog ≠ [] ∧ s.prog.length ≤ s.pc ∧ s.params.restartMode = .resetOnly ∧ t = stepIdle s.restart) ∨
    (∃ i, s.prog[0]? = some i ∧ s.prog.length ≤ s.pc ∧ s.params.restartMode = .resetAndExecute ∧
      stepExecuting i s.restart = .next t) := by
  rw [stepCommand] at h
  cases hp : s.prog with
  | nil => rw [hp] at h; cases h; exact .inl ⟨rfl, rfl⟩
  | cons first rest =>
    rw [hp] at h; dsimp only at h; rw [← hp] at h
    cases hi : s.prog[s.pc]? with
    | some i => rw [hi] at h; rw [← hp]; exact .inr (.inl ⟨i, hi, h⟩)
    | none =>
      rw [hi] at h; dsimp only at h
      have hle : s.prog.length ≤ s.pc := List.getElem?_eq_none_iff.mp hi
      rw [hp] at hle
      cases hm : s.params.restartMode with
      | resetOnly => rw [hm] at h; cases h; exact .inr (.inr (.inl ⟨by simp, hle, rfl, rfl⟩))
      | resetAndExecute => rw [hm] at h; exact .inr (.inr (.inr ⟨first, rfl, hle, rfl, h⟩))

/-- The loop of `RUN` changes registers, moves the cursor past its instructions and returns one result for each. -/
theorem runLoop_next {l : List Instr} {s t : State} {rs : List StepResult} (h : runLoop l s = .next (t, rs)) :
    (∃ x, t = (s.setRegs x).setPc (s.pc + l.length)) ∧ rs.length = l.length := by
  induction l generalizing s t rs with
  | nil => cases h; exact ⟨⟨s.regs, rfl⟩, rfl⟩
  | cons i rest ih =>
    rw [runLoop] at h
    cases he : executeAtCursor i s with
    | fault f => rw [he] at h; cases h
    | refused r => rw [he] at h; cases h
    | next u =>
      rw [he] at h; dsimp only at h
      cases hr : runLoop rest u with
      | fault f => rw [hr] at h; cases h
      | refused r => rw [hr] at h; cases h
      | next v =>
        rw [hr] at h; cases h
        obtain ⟨⟨x, hx⟩, hlen⟩ := ih hr
        obtain ⟨y, -, rfl⟩ := executeAtCursor_next he
        refine ⟨⟨x, ?_⟩, by simp [hlen]⟩
        rw [hx, List.length_cons, Nat.add_comm rest.length 1, ← Nat.add_assoc]; rfl

/-- What `RUN` can do (R95). -/
theorem runCommand_next {s t : State} (h : runCommand s = .next t) :
    (s.prog = [] ∧ t = s.respond (.ran [])) ∨
    (s.prog ≠ [] ∧ ∃ x rs, rs.length = s.prog.length ∧
      t = ((s.setRegs x).setPc s.prog.length).respond (.ran rs)) := by
  rw [runCommand] at h
  cases hp : s.prog with
  | nil => rw [hp] at h; cases h; exact .inl ⟨rfl, rfl⟩
  | cons first rest =>
    rw [hp] at h; dsimp only at h; rw [← hp] at h
    cases hr : runLoop s.prog s.restart with
    | fault f => rw [hr] at h; cases h
    | refused r => rw [hr] at h; cases h
    | next u =>
      rw [hr] at h; cases h
      obtain ⟨⟨x, hx⟩, hlen⟩ := runLoop_next (t := u.1) (rs := u.2) hr
      refine .inr ⟨by simp, x, u.2, by rw [hlen, hp], ?_⟩
      rw [hx, hp]; simp only [State.restart_pc, Nat.zero_add]; rfl

/-- What a command can do to the state: reply and nothing else; store or remove the last instruction and restart;
execute at the cursor; restart; execute `prog[0]` from a restart; or run the whole Program. -/
theorem perform_next {c : Command} {s t : State} (h : perform c s = .next t) :
    (∃ r, t = s.respond r) ∨
    (∃ arg i, c = .append arg ∧ decodeArg arg = .ok i ∧ s.isFull = false ∧
      t = ((s.setProg (s.prog ++ [i])).restart).respond .appended) ∨
    (c = .removeLast ∧ s.prog ≠ [] ∧ t = ((s.setProg s.prog.dropLast).restart).respond (.removed true)) ∨
    (c = .step ∧ s.pc < s.prog.length ∧ ∃ x r, t = ((s.setRegs x).setPc (s.pc + 1)).respond r) ∨
    (c = .step ∧ s.prog ≠ [] ∧ s.prog.length ≤ s.pc ∧ ∃ r, t = s.restart.respond r) ∨
    (c = .step ∧ s.prog ≠ [] ∧ s.prog.length ≤ s.pc ∧ ∃ x r, t = ((s.setRegs x).setPc 1).respond r) ∨
    (c = .run ∧ s.prog ≠ [] ∧ ∃ x r, t = ((s.setRegs x).setPc s.prog.length).respond r) := by
  cases c with
  | append arg =>
    simp only [perform, Host.Outcome.next.injEq] at h; subst h
    rw [appendCommand]
    cases hd : decodeArg arg with
    | error e => exact .inl ⟨_, rfl⟩
    | ok i =>
      cases hf : s.isFull with
      | true => exact .inl ⟨.appendFailed .programFull, by simp [State.reject]⟩
      | false => exact .inr (.inl ⟨arg, i, rfl, hd, rfl, by simp⟩)
  | removeLast =>
    simp only [perform, Host.Outcome.next.injEq] at h; subst h
    rw [removeLastCommand]
    cases hp : s.prog with
    | nil => exact .inl ⟨_, rfl⟩
    | cons a l => exact .inr (.inr (.inl ⟨rfl, by simp, rfl⟩))
  | snapshot => cases h; exact .inl ⟨_, rfl⟩
  | step =>
    obtain ⟨-, rfl⟩ | ⟨i, hi, he⟩ | ⟨hp, hle, -, rfl⟩ | ⟨i, hi, hle, -, he⟩ := stepCommand_next h
    · exact .inl ⟨_, rfl⟩
    · obtain ⟨x, -, rfl⟩ := stepExecuting_next he
      obtain ⟨hlt, -⟩ := List.getElem?_eq_some_iff.mp hi
      exact .inr (.inr (.inr (.inl ⟨rfl, hlt, x, _, rfl⟩)))
    · exact .inr (.inr (.inr (.inr (.inl ⟨rfl, hp, hle, _, rfl⟩))))
    · obtain ⟨x, -, rfl⟩ := stepExecuting_next he
      obtain ⟨hlt, -⟩ := List.getElem?_eq_some_iff.mp hi
      exact .inr (.inr (.inr (.inr (.inr (.inl ⟨rfl, List.ne_nil_of_length_pos hlt, hle, x, _, rfl⟩)))))
  | run =>
    obtain ⟨-, rfl⟩ | ⟨hp, x, rs, -, rfl⟩ := runCommand_next h
    · exact .inl ⟨_, rfl⟩
    · exact .inr (.inr (.inr (.inr (.inr (.inr ⟨rfl, hp, x, _, rfl⟩)))))

/-- A step is the next command, performed on the state without it. -/
theorem step_eq (s : State) : step s = perform (nextCommand s) (s.setCommands s.commands.tail) := rfl

/-- When the host has no commands left, a step is `STEP`. -/
theorem step_of_no_commands {s : State} (h : s.commands = []) : step s = stepCommand s := by
  have hs : s.setCommands s.commands.tail = s := by cases s; simp only at h; subst h; rfl
  rw [step_eq, hs, nextCommand, h]; rfl

end Sys2Proof.Machine
end

