-- ==== Sys2Proof/Laws/PerInstr.lean ====
section
/-! SUPPORT. Facts about every instruction as syntax, one lemma per constructor: its storage word is a legal word. -/

namespace Sys2Proof.Laws.EncodesLegally

/-- The storage word of an instruction is a legal word (30_encoding.md R60, R63). -/
def Statement (i : Instr) : Prop := wordLegal (encode i) = true

/-- The 12 names are all there are. -/
theorem mem_all (n : RegName) : n ∈ RegName.all := by cases n with | _ r => cases r <;> decide

/-- Format RR keeps clear of every reserved bit and code. -/
theorem legal_RR (o : Op) (d n : RegName) :
    wordLegal (BitVec.ofNat 16 (o.code * 2 ^ 14 + d.code * 2 ^ 8 + n.code)) = true := by
  have h : ∀ d ∈ RegName.all, ∀ n ∈ RegName.all,
      wordLegal (BitVec.ofNat 16 (o.code * 2 ^ 14 + d.code * 2 ^ 8 + n.code)) = true := by cases o <;> decide
  exact h d (mem_all d) n (mem_all n)


/-- Format RI keeps clear of every reserved bit and code. -/
theorem legal_RI (o : Op) (d : RegName) (v : Byte) :
    wordLegal (BitVec.ofNat 16 (o.code * 2 ^ 14 + 2 ^ 13 + d.code * 2 ^ 8 + v.toNat)) = true := by
  have h : ∀ d ∈ RegName.all, ∀ v : Fin 256,
      wordLegal (BitVec.ofNat 16 (o.code * 2 ^ 14 + 2 ^ 13 + d.code * 2 ^ 8 + v.val)) = true := by
    cases o <;> decide +kernel
  exact h d (mem_all d) ⟨v.toNat, v.isLt⟩

theorem movRR (rd rs : RegName) : Statement (.movRR rd rs) := legal_RR .mov rd rs
theorem movRI (rd : RegName) (imm : Byte) : Statement (.movRI rd imm) := legal_RI .mov rd imm
theorem addRR (rd rs : RegName) : Statement (.addRR rd rs) := legal_RR .add rd rs
theorem addRI (rd : RegName) (imm : Byte) : Statement (.addRI rd imm) := legal_RI .add rd imm
theorem subRR (rd rs : RegName) : Statement (.subRR rd rs) := legal_RR .sub rd rs
theorem subRI (rd : RegName) (imm : Byte) : Statement (.subRI rd imm) := legal_RI .sub rd imm

end Sys2Proof.Laws.EncodesLegally
end

