-- ==== Sys2Proof/Laws/Run.lean ====
section
/-! SUPPORT. Runs of many steps: unfolding one step, and the one induction that every claim about runs needs. -/

namespace Sys2Proof.Machine

/-- A run whose first step completes goes on from there, on any machine. -/
theorem run_succ_of_next {M : Host.Core} {s t : M.State} (h : M.step s = .next t) (k : Nat) :
    M.run (k + 1) s = M.run k t := by
  simp only [Host.Core.run, h]

/-- A run whose first step completes goes on from there. -/
theorem run_succ {s t : State} (h : step s = .next t) (k : Nat) :
    Host.Core.run Sys2Proof.core (k + 1) s = Host.Core.run Sys2Proof.core k t :=
  run_succ_of_next (M := Sys2Proof.core) h k

/-- A run of `m + n` steps is a run of `n` after one of `m`, on any machine. -/
theorem run_add_of_next {M : Host.Core} {m : Nat} {s t : M.State} (h : M.run m s = .next t) (n : Nat) :
    M.run (m + n) s = M.run n t := by
  induction m generalizing s with
  | zero => cases h; rw [Nat.zero_add]
  | succ m ih =>
    rw [Nat.succ_add]
    cases hs : M.step s with
    | next u => rw [run_succ_of_next hs] at h ⊢; exact ih h
    | fault f => simp [Host.Core.run, hs] at h
    | refused r => simp [Host.Core.run, hs] at h

/-- A run of `m + n` steps is a run of `n` after one of `m`. -/
theorem run_add {s t : State} {m : Nat} (h : Host.Core.run Sys2Proof.core m s = .next t) (n : Nat) :
    Host.Core.run Sys2Proof.core (m + n) s = Host.Core.run Sys2Proof.core n t :=
  run_add_of_next (M := Sys2Proof.core) h n

/-- A property that guarantees a step and that every step keeps guarantees a run of any length, which keeps it. -/
theorem run_of_kept {P : State → Prop} (h : ∀ s, P s → ∃ t, step s = .next t ∧ P t) (k : Nat) :
    ∀ s : State, P s → ∃ t : State, Host.Core.run Sys2Proof.core k s = .next t ∧ P t := by
  induction k with
  | zero => exact fun s hs => ⟨s, rfl, hs⟩
  | succ k ih =>
    intro s hs
    obtain ⟨t, ht, hp⟩ := h s hs
    obtain ⟨u, hu, hq⟩ := ih t hp
    exact ⟨u, by rw [run_succ ht]; exact hu, hq⟩

end Sys2Proof.Machine
end

