-- ==== Sys2Proof/Laws/Text.lean ====
section
/-! SUPPORT. What the pieces of the text decoder do on blanks, tokens and terminators; that the names, mnemonics and
literals read back as they are written; and that the decoder's checks of a line's form are the grammar's shape. -/

namespace Sys2Proof

theorem isWs_iff (c : Char) : isWs c = true ↔ c = ' ' ∨ c = '\t' := by simp [isWs]

/-- Blanks before anything are skipped. -/
theorem skipWs_append {ws : Line} (h : ∀ c ∈ ws, isWs c = true) (rest : Line) : skipWs (ws ++ rest) = skipWs rest := by
  induction ws with
  | nil => rfl
  | cons c ws ih =>
    simp only [List.mem_cons, forall_eq_or_imp] at h
    rw [skipWs, List.cons_append, List.dropWhile_cons_of_pos h.1]
    exact ih h.2

/-- A line that begins with no blank keeps its beginning. -/
theorem skipWs_cons {c : Char} (h : isWs c = false) (rest : Line) : skipWs (c :: rest) = c :: rest :=
  List.dropWhile_cons_of_neg (by simp [h])

/-- A token is taken whole when no token character follows it. -/
theorem takeToken_append {tok rest : Line} (h : ∀ c ∈ tok, isTokenChar c = true)
    (hr : ∀ c ∈ rest.head?, isTokenChar c = false) : takeToken (tok ++ rest) = (tok, rest) := by
  induction tok with
  | nil =>
    cases rest with
    | nil => rfl
    | cons c rest => simp [takeToken, hr c rfl]
  | cons c tok ih =>
    simp only [List.mem_cons, forall_eq_or_imp] at h
    have ih := ih h.2
    simp only [takeToken, Prod.mk.injEq] at ih ⊢
    rw [List.cons_append, List.takeWhile_cons_of_pos h.1, List.dropWhile_cons_of_pos h.1, ih.1, ih.2]
    exact ⟨rfl, rfl⟩

/-- One terminator is stripped from a line whose own last character is none. -/
theorem stripTerminator_append {l eol : Line} (hl : ∀ c ∈ l.getLast?, c ≠ '\n' ∧ c ≠ '\r')
    (he : eol ∈ [[], ['\n'], ['\r', '\n'], ['\r']]) : stripTerminator (l ++ eol) = l := by
  have key : ∀ r : Line, (∀ c ∈ r.head?, c ≠ '\n' ∧ c ≠ '\r') →
      stripTerminator (r.reverse ++ eol) = r.reverse := by
    intro r hr
    simp only [List.mem_cons, List.not_mem_nil, or_false] at he
    rcases he with rfl | rfl | rfl | rfl
    · cases r with
      | nil => rfl
      | cons c r => have := hr c rfl; simp [stripTerminator, this.1, this.2]
    · cases r with
      | nil => rfl
      | cons c r => have := hr c rfl; simp [stripTerminator, this.2]
    · simp [stripTerminator]
    · simp [stripTerminator]
  have h := key l.reverse (by rw [List.head?_reverse]; exact hl)
  rwa [List.reverse_reverse] at h

/-- A register name reads back. -/
theorem regOfText_text (n : RegName) : regOfText n.text = some n := by cases n with | _ r => cases r <;> decide

/-- A mnemonic reads back. -/
theorem opOfText_text (o : Op) : opOfText o.text = some o := by cases o <;> decide

/-- A printed source operand is classified as itself. -/
theorem classifySrc_printSrc (s : Src) : classifySrc (printSrc s) = .ok s := by
  cases s with
  | reg n => cases n with | _ r => cases r <;> rfl
  | lit v =>
    have h : ∀ v : Fin 256, (match classifySrc (printLiteral (BitVec.ofFin v)) with
        | .ok s => decide (s = .lit (BitVec.ofFin v)) | .error _ => false) = true := by decide +kernel
    have h := h v.toFin
    show classifySrc (printLiteral v) = .ok (.lit v)
    cases hc : classifySrc (printLiteral v) with
    | error e => rw [show BitVec.ofFin v.toFin = v from rfl, hc] at h; simp at h
    | ok s => rw [show BitVec.ofFin v.toFin = v from rfl, hc] at h; simpa using h

/-- Every character of a written operand may stand in a token and in a line. -/
theorem printSrc_chars (s : Src) :
    printSrc s ≠ [] ∧ (printSrc s).all isTokenChar = true ∧ (printSrc s).all isAllowedChar = true := by
  cases s with
  | reg n => cases n with | _ r => cases r <;> decide
  | lit v =>
    have h : ∀ v : Fin 256, printLiteral (BitVec.ofFin v) ≠ [] ∧ (printLiteral (BitVec.ofFin v)).all isTokenChar = true ∧
        (printLiteral (BitVec.ofFin v)).all isAllowedChar = true := by decide +kernel
    exact h v.toFin

/-! ### The shape of a line -/

/-- Blanks are the characters `WS` of the decoder. -/
theorem isBlank_iff (w : Line) : IsBlank w ↔ ∀ c ∈ w, isWs c = true := by simp only [IsBlank, isWs_iff]

/-- A token of the grammar is a token of the decoder all of whose characters a line may hold. -/
theorem isToken_iff (t : Line) :
    IsToken t ↔ t ≠ [] ∧ (∀ c ∈ t, isTokenChar c = true) ∧ ∀ c ∈ t, isAllowedChar c = true := by
  have key : ∀ c : Char, (0x21 ≤ c.toNat ∧ c.toNat ≤ 0x7E ∧ c ≠ ',') ↔
      (isTokenChar c = true ∧ isAllowedChar c = true) := by
    intro c
    have hs : c = ' ' → c.toNat = 0x20 := by rintro rfl; rfl
    have ht : c = '\t' → c.toNat = 9 := by rintro rfl; rfl
    simp only [isTokenChar, isAllowedChar, isWs, Bool.and_eq_true, Bool.not_eq_true', Bool.or_eq_false_iff, beq_eq_false_iff_ne,
      bne_iff_ne, Bool.or_eq_true, beq_iff_eq, decide_eq_true_eq]
    constructor
    · rintro ⟨h₁, h₂, h₃⟩
      exact ⟨⟨⟨fun h => by have := hs h; omega, fun h => by have := ht h; omega⟩, h₃⟩, .inr ⟨h₁, h₂⟩⟩
    · rintro ⟨⟨⟨h₁, h₂⟩, h₃⟩, (h | h) | h⟩
      · exact absurd h h₁
      · exact absurd h h₂
      · exact ⟨h.1, h.2, h₃⟩
  simp only [IsToken, key]
  exact and_congr_right fun _ => ⟨fun h => ⟨fun c hc => (h c hc).1, fun c hc => (h c hc).2⟩,
    fun h c hc => ⟨h.1 c hc, h.2 c hc⟩⟩

/-- Mnemonics and register names are tokens of the grammar. -/
theorem isToken_opText (o : Op) : IsToken o.text := by cases o <;> simp [IsToken, Op.text]

theorem isToken_regText (n : RegName) : IsToken n.text := by
  cases n with | _ r => cases r <;> simp [IsToken, RegName.text]

/-- What is left after the blanks begins with none. -/
theorem skipWs_split (l : Line) : ∃ w, IsBlank w ∧ l = w ++ skipWs l :=
  ⟨l.takeWhile isWs, (isBlank_iff _).mpr fun _ hc => List.mem_takeWhile_imp hc, (List.takeWhile_append_dropWhile).symm⟩

/-- What is left after a token begins with no token character. -/
theorem takeToken_split {l tok rest : Line} (h : takeToken l = (tok, rest)) :
    l = tok ++ rest ∧ (∀ c ∈ tok, isTokenChar c = true) ∧ ∀ c ∈ rest.head?, isTokenChar c = false := by
  simp only [takeToken, Prod.mk.injEq] at h
  obtain ⟨rfl, rfl⟩ := h
  refine ⟨List.takeWhile_append_dropWhile.symm, fun _ hc => List.mem_takeWhile_imp hc, fun c hc => ?_⟩
  have := List.head?_dropWhile_not isTokenChar l
  rw [Option.mem_def.mp hc] at this
  simpa using this

/-- A token after blanks, with more blanks or a comma after it, is found. -/
theorem takeToken_skipWs {w tok rest : Line} (hw : IsBlank w) (ht : tok ≠ []) (hc : ∀ c ∈ tok, isTokenChar c = true)
    (hr : ∀ c ∈ rest.head?, isTokenChar c = false) : takeToken (skipWs (w ++ (tok ++ rest))) = (tok, rest) := by
  rw [skipWs_append ((isBlank_iff w).mp hw)]
  obtain ⟨c, t, rfl⟩ := List.exists_cons_of_ne_nil ht
  have hws : isWs c = false := by
    have := hc c (List.mem_cons_self ..)
    simp only [isTokenChar, Bool.and_eq_true, Bool.not_eq_true'] at this
    exact this.1
  rw [List.cons_append, skipWs_cons hws, ← List.cons_append]
  exact takeToken_append hc hr

/-- Blanks end a token, and so does what follows them if it does. -/
theorem head_blank {w rest : Line} (hw : IsBlank w) (hr : ∀ c ∈ rest.head?, isTokenChar c = false) :
    ∀ c ∈ (w ++ rest).head?, isTokenChar c = false := by
  cases w with
  | nil => exact hr
  | cons c w =>
    have : isWs c = true := (isBlank_iff _).mp hw c (List.mem_cons_self ..)
    simp [isTokenChar, this]

/-- A line is split into its tokens exactly when it has the shape of R49 item 4. -/
theorem splitLine_eq_some (l op dest src : Line) :
    splitLine l = some (op, dest, src) ↔
      (op ≠ [] ∧ dest ≠ [] ∧ src ≠ []) ∧
      (∀ c ∈ op, isTokenChar c = true) ∧ (∀ c ∈ dest, isTokenChar c = true) ∧ (∀ c ∈ src, isTokenChar c = true) ∧
      ∃ w₁ w₂ w₃ w₄ w₅ : Line, IsBlank w₁ ∧ IsBlank w₂ ∧ w₂ ≠ [] ∧ IsBlank w₃ ∧ IsBlank w₄ ∧ IsBlank w₅ ∧
        l = w₁ ++ (op ++ (w₂ ++ (dest ++ (w₃ ++ (',' :: (w₄ ++ (src ++ w₅))))))) := by
  constructor
  · intro h
    unfold splitLine at h
    cases h₁ : takeToken (skipWs l) with
    | mk o r₁ =>
    cases h₂ : takeToken (skipWs r₁) with
    | mk d r₂ =>
    rw [h₁] at h; dsimp only at h; rw [h₂] at h; dsimp only at h
    obtain ⟨w₁, b₁, e₁⟩ := skipWs_split l
    obtain ⟨w₂, b₂, e₂⟩ := skipWs_split r₁
    obtain ⟨w₃, b₃, e₃⟩ := skipWs_split r₂
    obtain ⟨f₁, t₁, n₁⟩ := takeToken_split h₁
    obtain ⟨f₂, t₂, n₂⟩ := takeToken_split h₂
    split at h
    case h_2 => cases h
    case h_1 _ _ _ _ _ _ r₃ h₃ =>
      cases h₄ : takeToken (skipWs r₃) with
      | mk s r₄ =>
      rw [h₄] at h; dsimp only at h
      obtain ⟨w₄, b₄, e₄⟩ := skipWs_split r₃
      obtain ⟨w₅, b₅, e₅⟩ := skipWs_split r₄
      obtain ⟨f₄, t₄, -⟩ := takeToken_split h₄
      split at h
      case h_2 => cases h
      case h_1 _ _ _ _ h₅ =>
        cases h
        refine ⟨⟨by simp, by simp, by simp⟩, t₁, t₂, t₄, w₁, w₂, w₃, w₄, w₅, b₁, b₂, ?_, b₃, b₄, b₅, ?_⟩
        · rintro rfl
          rw [List.nil_append, f₂] at e₂
          rw [e₂] at n₁
          have := n₁ _ rfl
          rw [t₂ _ (List.mem_cons_self ..)] at this
          cases this
        · rw [e₁, f₁, e₂, f₂, e₃, h₃, e₄, f₄, e₅, h₅, List.append_nil]
  · rintro ⟨⟨ho, hd, hs⟩, tt, td, ts, w₁, w₂, w₃, w₄, w₅, b₁, b₂, hw, b₃, b₄, b₅, rfl⟩
    have hcomma : isTokenChar ',' = false := by decide
    have hend : skipWs w₅ = [] := by
      have := skipWs_append ((isBlank_iff _).mp b₅) []
      rwa [List.append_nil] at this
    have h₂ : ∀ c ∈ (w₂ ++ (dest ++ (w₃ ++ (',' :: (w₄ ++ (src ++ w₅)))))).head?, isTokenChar c = false := by
      obtain ⟨c, w, rfl⟩ := List.exists_cons_of_ne_nil hw
      have : isWs c = true := (isBlank_iff _).mp b₂ c (List.mem_cons_self ..)
      simp [isTokenChar, this]
    have h₅ : ∀ c ∈ w₅.head?, isTokenChar c = false := by simpa using head_blank (rest := []) b₅ (by simp)
    unfold splitLine
    rw [takeToken_skipWs b₁ ho tt h₂]; dsimp only
    rw [takeToken_skipWs b₂ hd td (head_blank b₃ (by simp [hcomma]))]; dsimp only
    rw [skipWs_append ((isBlank_iff _).mp b₃), skipWs_cons (by decide)]
    obtain ⟨_, _, rfl⟩ := List.exists_cons_of_ne_nil ho
    obtain ⟨_, _, rfl⟩ := List.exists_cons_of_ne_nil hd
    simp only []
    rw [takeToken_skipWs b₄ hs ts h₅]; dsimp only; rw [hend]
    obtain ⟨_, _, rfl⟩ := List.exists_cons_of_ne_nil hs
    rfl

/-- What is stripped from a line is at most one terminator. -/
theorem stripTerminator_split (l : Line) :
    ∃ eol ∈ [[], ['\n'], ['\r', '\n'], ['\r']], l = stripTerminator l ++ eol := by
  unfold stripTerminator
  split
  case h_1 r h => exact ⟨['\r', '\n'], by simp, by rw [← List.reverse_reverse l, h]; simp⟩
  case h_2 r _ h => exact ⟨['\n'], by simp, by rw [← List.reverse_reverse l, h]; simp⟩
  case h_3 r h => exact ⟨['\r'], by simp, by rw [← List.reverse_reverse l, h]; simp⟩
  case h_4 => exact ⟨[], by simp, by simp⟩

/-- The decoder's two checks of a line's form are the grammar's shape. -/
theorem hasShape_iff (line op dest src : Line) :
    HasShape line op dest src ↔
      (stripTerminator line).all isAllowedChar = true ∧ splitLine (stripTerminator line) = some (op, dest, src) := by
  have hb : ∀ w, IsBlank w → ∀ c ∈ w, isAllowedChar c = true := fun w h c hc => by
    simp [isAllowedChar, (isBlank_iff w).mp h c hc]
  rw [splitLine_eq_some, List.all_eq_true]
  constructor
  · rintro ⟨ho, hd, hs, w₁, w₂, w₃, w₄, w₅, eol, b₁, b₂, hw, b₃, b₄, b₅, he, rfl⟩
    obtain ⟨no, tt, ao⟩ := (isToken_iff _).mp ho
    obtain ⟨nd, td, ad⟩ := (isToken_iff _).mp hd
    obtain ⟨ns, ts, as⟩ := (isToken_iff _).mp hs
    have ha : ∀ c ∈ w₁ ++ op ++ w₂ ++ dest ++ w₃ ++ [','] ++ w₄ ++ src ++ w₅, isAllowedChar c = true := by
      simp only [List.mem_append, List.mem_singleton]
      rintro c ((((((((h | h) | h) | h) | h) | h) | h) | h) | h)
      · exact hb _ b₁ c h
      · exact ao c h
      · exact hb _ b₂ c h
      · exact ad c h
      · exact hb _ b₃ c h
      · rw [h]; decide
      · exact hb _ b₄ c h
      · exact as c h
      · exact hb _ b₅ c h
    rw [stripTerminator_append (fun c hc => by
      have := ha c (List.mem_of_getLast? hc)
      constructor <;> (rintro rfl; revert this; decide)) he]
    exact ⟨ha, ⟨no, nd, ns⟩, tt, td, ts, w₁, w₂, w₃, w₄, w₅, b₁, b₂, hw, b₃, b₄, b₅, by simp⟩
  · rintro ⟨ha, ⟨no, nd, ns⟩, tt, td, ts, w₁, w₂, w₃, w₄, w₅, b₁, b₂, hw, b₃, b₄, b₅, e⟩
    obtain ⟨eol, he, hl⟩ := stripTerminator_split line
    have hm : ∀ t : Line, (∀ c ∈ t, c ∈ stripTerminator line) → ∀ c ∈ t, isAllowedChar c = true :=
      fun t h c hc => ha c (h c hc)
    refine ⟨(isToken_iff _).mpr ⟨no, tt, hm _ fun c hc => by rw [e]; simp [hc]⟩,
      (isToken_iff _).mpr ⟨nd, td, hm _ fun c hc => by rw [e]; simp [hc]⟩,
      (isToken_iff _).mpr ⟨ns, ts, hm _ fun c hc => by rw [e]; simp [hc]⟩,
      w₁, w₂, w₃, w₄, w₅, eol, b₁, b₂, hw, b₃, b₄, b₅, he, ?_⟩
    rw [hl, e]; simp

/-- A line of the grammar's shape is decided by its three tokens alone. -/
theorem decodeLine_of_shape {line op dest src : Line} (h : HasShape line op dest src) :
    decodeLine line =
      match opOfText op with
      | none => .error .malformedLine
      | some o =>
        match regOfText dest with
        | none => .error .unknownRegister
        | some d =>
          match classifySrc src with
          | .error e => .error e
          | .ok s => .ok (mkInstr o d s) := by
  obtain ⟨ha, hs⟩ := (hasShape_iff ..).mp h
  rw [decodeLine, ha, hs]; rfl

/-- A register name is found exactly by the token it is written as. -/
theorem regOfText_eq_some (tok : Line) (n : RegName) : regOfText tok = some n ↔ tok = n.text := by
  refine ⟨fun h => ?_, fun h => h ▸ regOfText_text n⟩
  have := List.find?_some h
  exact (beq_iff_eq.mp this).symm

/-- An operation is found exactly by the token it is written as. -/
theorem opOfText_eq_some (tok : Line) (o : Op) : opOfText tok = some o ↔ tok = o.text := by
  refine ⟨fun h => ?_, fun h => h ▸ opOfText_text o⟩
  have := List.find?_some h
  exact (beq_iff_eq.mp this).symm

end Sys2Proof
end

