-- ==== Sys2Proof/Tests/Slice0.lean ====
section
/-! SUPPORT. The model's own tests, their expected values from spec/95_test_vectors.md and the bit layouts of
30_encoding.md, and a witness for the hypotheses of every statement that has some. -/

namespace Sys2Proof.Tests

open Sys2Proof.Machine

/-! ### Small states -/

/-- An engine with the parameters `p`, the registers `x`, the Program `l` and the cursor `k`. -/
def mk (p : Params) (x : Regs) (l : List Instr) (k : Nat) : State :=
  { State.resetWith p with regs := x, prog := l, pc := k }

/-- The spec's defaults with `RESTART_MODE = reset_and_execute`. -/
def restartExecuting : Params := { defaultParams with restartMode := .resetAndExecute }

/-- The registers with the halves of `AX` and `BX` given and the rest 0. -/
def axbx (ah al bh bl : Byte) : Regs := { Regs.zero with ah := ah, al := al, bh := bh, bl := bl }

/-- The machine went on, to a state that passes the test. -/
def goesOn (o : Host.Outcome State Fault Refusal) (test : State → Bool) : Bool :=
  match o with
  | .next t => test t
  | .fault _ | .refused _ => false

/-- `MOV AL,50`, `ADD AL,10`, `SUB AL,100`: the program of SMS §8. -/
def p1 : List Instr := [.movRI (.byte .al) 50, .addRI (.byte .al) 10, .subRI (.byte .al) 100]

/-! ### Well-formedness: an ill-formed term for each check (vectors X5, X7, X9, X11, X12, X13) -/

theorem smoke_reserved_op : wordReservedOp 0xC000 = true ∧ wordLegal 0xC000 = false := by decide
theorem smoke_reserved_bit : wordReservedBit 0x1000 = true ∧ wordLegal 0x1000 = false := by decide
theorem smoke_bad_padding : wordBadPadding 0x0010 = true ∧ wordLegal 0x0010 = false := by decide
theorem smoke_unknown_dest : wordUnknownDest 0x2CFF = true ∧ wordLegal 0x2CFF = false := by decide
theorem smoke_unknown_source : wordUnknownSource 0x000C = true ∧ wordLegal 0x000C = false := by decide
theorem smoke_legal : wordLegal 0x0000 = true ∧ wordLegal 0xABFF = true := by decide
theorem smoke_zero_capacity : Params.wellFormed { defaultParams with progMax := some 0 } = false := by decide
theorem smoke_params : Params.wellFormed defaultParams = true ∧ Params.wellFormed resetParams = true := by decide

/-! ### Decoding: each row's word, bit by bit `op | I | 0 | rd | s` -/

theorem decode_movRR : decodeTableWord 16 0b00_0_0_0100_0000_0010 = some (.movRR (.byte .bh) (.byte .al)) := by decide
theorem decode_movRI : decodeTableWord 16 0b00_1_0_0010_00110010 = some (.movRI (.byte .al) 50) := by decide
theorem decode_addRR : decodeTableWord 16 0b01_0_0_0111_0000_1000 = some (.addRR (.byte .ch) (.byte .cl)) := by decide
theorem decode_addRI : decodeTableWord 16 0b01_1_0_0010_00001010 = some (.addRI (.byte .al) 10) := by decide
theorem decode_subRR : decodeTableWord 16 0b10_0_0_1000_0000_1010 = some (.subRR (.byte .cl) (.byte .dh)) := by decide
theorem decode_subRI : decodeTableWord 16 0b10_1_0_1011_11111111 = some (.subRI (.byte .dl) 255) := by decide
theorem decode_reserved_first : decodeWord 0xFFFF = .error .malformedLine := by decide
theorem decode_unknown_source : decodeWord 0x8B0C = .error .unknownRegister := by decide
theorem encode_fields : encode (.addRR (.byte .dl) (.byte .dl)) = 0x4B0B#16 ∧ encode (.subRI (.byte .al) 100) = 0xA264#16 := by
  decide

/-! ### Text lines (vectors T4, T6, T8, T12) -/

theorem line_blanks : decodeLine "  MOV\tAL , 7  ".toList = .ok (.movRI (.byte .al) 7) := by decide
theorem line_leading_zeros : decodeLine "MOV AL,0255".toList = .ok (.movRI (.byte .al) 255) := by decide
theorem line_crlf : decodeLine "MOV AL,5\r\n".toList = .ok (.movRI (.byte .al) 5) := by decide
theorem line_wide_names : decodeLine "SUB DX, AX".toList = .ok (.subRR (.wide .dx) (.wide .ax)) := by decide
theorem line_printed : printInstr (.addRI (.byte .al) 10) = "ADD AL, 10".toList := by decide

/-! ### Instructions, one step of `exec` each (vectors M, A, B; W under `wide16`) -/

theorem exec_M5 : goesOn (exec (.movRI (.byte .ah) 1) State.reset)
    (fun t => t.regs.ah == 1 && readReg (.wide .ax) t.regs == 256) = true := by decide
theorem exec_W6 : goesOn (exec (.movRI (.wide .ax) 5) (mk resetParams (axbx 3 9 0 0) [] 0))
    (fun t => t.regs == axbx 0 5 0 0) = true := by decide
theorem exec_M7 : goesOn (exec (.movRR (.byte .bl) (.byte .al)) (mk defaultParams (axbx 9 60 0 0) [] 0))
    (fun t => t.regs == axbx 9 60 0 60) = true := by decide
theorem exec_W16 : goesOn (exec (.movRR (.byte .ah) (.wide .ax)) (mk resetParams (axbx 0x12 0x34 0 0) [] 0))
    (fun t => t.regs == axbx 255 0x34 0 0) = true := by decide
theorem exec_A16 : goesOn (exec (.addRI (.byte .al) 1) (mk defaultParams (axbx 0 255 0 0) [] 0))
    (fun t => t.regs == axbx 0 255 0 0) = true := by decide
theorem exec_W7 : goesOn (exec (.addRI (.wide .ax) 10) (mk resetParams (axbx 0 250 0 0) [] 0))
    (fun t => t.regs == axbx 1 4 0 0) = true := by decide
theorem exec_A14 : goesOn (exec (.addRR (.byte .bl) (.byte .al)) (mk defaultParams (axbx 0 44 0 1) [] 0))
    (fun t => t.regs == axbx 0 44 0 45) = true := by decide
theorem exec_W11 : goesOn (exec (.addRR (.wide .ax) (.wide .ax)) (mk resetParams (axbx 0x80 1 0 0) [] 0))
    (fun t => t.regs == axbx 255 255 0 0) = true := by decide
theorem exec_B14 : goesOn (exec (.subRI (.byte .al) 1) (mk defaultParams (axbx 1 0 0 0) [] 0))
    (fun t => t.regs == axbx 1 0 0 0) = true := by decide
theorem exec_W8 : goesOn (exec (.subRI (.wide .ax) 10) (mk resetParams (axbx 1 4 0 0) [] 0))
    (fun t => t.regs == axbx 0 250 0 0) = true := by decide
theorem exec_B12 : goesOn (exec (.subRR (.byte .al) (.byte .bh)) (mk defaultParams (axbx 0 30 10 0) [] 0))
    (fun t => t.regs == axbx 0 20 10 0) = true := by decide
theorem exec_W15 : goesOn (exec (.subRR (.byte .al) (.wide .bx)) (mk resetParams (axbx 0 10 1 44) [] 0))
    (fun t => t.regs == axbx 0 0 1 44) = true := by decide

/-! ### Commands, one step each (vectors S6, S8, S11, S12, and E5 by `RUN`) -/

theorem command_S6 : goesOn (perform (.append (.text "ADD AL, 300".toList)) (mk defaultParams (axbx 0 50 0 0) (p1.take 1) 1))
    (fun t => t.response == some (.appendFailed (.decode .invalidLiteral)) && t.regs.al == 50 && t.pc == 1) = true := by
  decide
theorem command_S11 : goesOn (perform .step (mk defaultParams (axbx 0 60 0 0) (p1.take 2) 2))
    (fun t => t.execState == .idle && t.regs == Regs.zero && t.pc == 0) = true := by decide
theorem command_S12 : goesOn (perform .step (mk restartExecuting (axbx 0 60 0 0) (p1.take 2) 2))
    (fun t => t.execState == .running && t.regs.al == 50 && t.pc == 1) = true := by decide
theorem command_run_E5 : goesOn (perform .run (mk defaultParams (axbx 7 7 7 7) p1 1))
    (fun t => match t.response with
      | some (.ran rs) => rs.map (fun r => (r.executedIndex, (r.registerSnapshot.map SnapshotEntry.dec).take 3)) ==
          [(some 0, [50, 0, 50]), (some 1, [60, 0, 60]), (some 2, [0, 0, 0])]
      | _ => false) = true := by decide
theorem snapshot_60 : snapshotEntry (axbx 0 60 0 0) (.wide .ax) =
    ⟨.wide .ax, "0000000000111100".toList, 60, "003C".toList⟩ := by decide
/-- A number that is no 16-bit word is placed nowhere (notes/assumptions/15.md). -/
theorem no_word_is_placed : State.reset.withFetchWord 17 0x12232 = State.reset := by decide
theorem fetched_word_runs : goesOn (step (State.reset.withFetchWord 16 0x2232))
    (fun t => t.regs.al == 50 && t.pc == 1) = true := by decide

/-! ### Witnesses: states and operands that meet the hypotheses of the statements -/

theorem mk_inv {p : Params} {x : Regs} {l : List Instr} {k : Nat} (h₁ : k ≤ l.length) (h₂ : k = 0 → x = Regs.zero)
    (h₃ : p.progMax = none) : (mk p x l k).Inv :=
  ⟨h₁, h₂, fun n hn => by rw [show (mk p x l k).params = p from rfl, h₃] at hn; cases hn⟩

/-- An engine in the middle of a run. -/
def midRun : State := mk resetParams (axbx 0 50 0 0) p1 1

theorem midRun_inv : midRun.Inv := mk_inv (by decide) (by decide) rfl

theorem witness_EveryStepKeepsTheInvariant : ∃ s t : State, s.Inv ∧ step s = .next t := ⟨midRun, _, midRun_inv, rfl⟩

theorem witness_StepsNeverChangeTheParameters : ∃ s t : State, step s = .next t := ⟨midRun, _, rfl⟩

theorem witness_ByteWriteReadsBack : (∃ r r' : ByteReg, r' ≠ r) ∧ ∃ (r : ByteReg) (w : WideReg), w ≠ owner r :=
  ⟨⟨.ah, .al, by decide⟩, .ah, .bx, by decide⟩

theorem witness_WideViewsAliasTheirBytes : ∃ (r : ByteReg) (w : WideReg), owner r ≠ w := ⟨.bl, .ax, by decide⟩

theorem witness_ByteDestinationFrame : ∃ (i : Instr) (d : ByteReg) (s t : State),
    i.dest = .byte d ∧ i.src = .reg (.wide .bx) ∧ exec i s = .next t :=
  ⟨.addRR (.byte .al) (.wide .bx), .al, midRun, _, rfl, rfl, rfl⟩

theorem witness_WideDestinationFrame : ∃ (i : Instr) (d : WideReg) (s t : State), i.dest = .wide d ∧ exec i s = .next t :=
  ⟨.subRI (.wide .ax) 7, .ax, midRun, _, rfl, rfl⟩

theorem witness_WideOperandFaultsUnderFaultPolicy : ∃ (i : Instr) (s : State), i.namesWide = true ∧
    s.params.wideOperandPolicy = .fault ∧ nextCommand s = .step ∧ s.prog[s.pc]? = some i ∧ s.isFull = false :=
  ⟨.addRI (.wide .ax) 0, mk defaultParams Regs.zero [.addRI (.wide .ax) 0] 0, by decide⟩

theorem witness_OnlyWideOperandsCanStop : (∃ (i : Instr) (s : State), i.namesWide = false ∧
    s.params.wideOperandPolicy = .fault) ∧ ∃ (i : Instr) (s : State), i.namesWide = true ∧
    s.params.wideOperandPolicy = .wide16 :=
  ⟨⟨.movRI (.byte .al) 0, mk defaultParams Regs.zero [] 0, by decide⟩, .movRI (.wide .ax) 0, State.reset, by decide⟩

theorem witness_WideMovClampsToTheDestination :
    (∃ (rd rs : RegName) (s : State), (Instr.movRR rd rs).op = .mov ∧ (Instr.movRR rd rs).namesWide = true ∧
      s.params.wideOperandPolicy = .wide16) ∧
    ∃ (rd : RegName) (imm : Byte) (s : State), (Instr.movRI rd imm).op = .mov ∧ (Instr.movRI rd imm).namesWide = true ∧
      s.params.wideOperandPolicy = .wide16 :=
  ⟨⟨.byte .al, .wide .bx, State.reset, by decide⟩, .wide .ax, 5, State.reset, by decide⟩

theorem witness_WideAddSaturatesAtTheDestination :
    (∃ (rd rs : RegName) (s : State), (Instr.addRR rd rs).op = .add ∧ (Instr.addRR rd rs).namesWide = true ∧
      s.params.wideOperandPolicy = .wide16) ∧
    ∃ (rd : RegName) (imm : Byte) (s : State), (Instr.addRI rd imm).op = .add ∧ (Instr.addRI rd imm).namesWide = true ∧
      s.params.wideOperandPolicy = .wide16 :=
  ⟨⟨.wide .ax, .byte .al, State.reset, by decide⟩, .wide .ax, 10, State.reset, by decide⟩

theorem witness_WideSubSaturatesAtZero :
    (∃ (rd rs : RegName) (s : State), (Instr.subRR rd rs).op = .sub ∧ (Instr.subRR rd rs).namesWide = true ∧
      s.params.wideOperandPolicy = .wide16) ∧
    ∃ (rd : RegName) (imm : Byte) (s : State), (Instr.subRI rd imm).op = .sub ∧ (Instr.subRI rd imm).namesWide = true ∧
      s.params.wideOperandPolicy = .wide16 :=
  ⟨⟨.wide .ax, .wide .bx, State.reset, by decide⟩, .wide .ax, 10, State.reset, by decide⟩

theorem witness_WideWriteBackSplitsIntoBytes :
    readReg (.wide .ax) (writeDest (.wide .ax) 65535 Regs.zero) = 65535 ∧
    readReg (.byte .ah) (writeDest (.byte .ah) 255 Regs.zero) = 255 ∧ (65535 : Nat) ≤ 65535 ∧ (255 : Nat) ≤ 255 ∧
    owner .bh ≠ .ax ∧ ByteReg.al ≠ .ah ∧ maxOf (.byte .dl) = 255 ∧ maxOf (.wide .dx) = 65535 := by decide

/-- The second clause's `t` and its boundary, the last instruction of the Program. -/
theorem witness_StepRunsTheInstructionAtTheCursor :
    (∃ (s : State) (i : Instr), nextCommand s = .step ∧ s.prog[s.pc]? = some i) ∧
    ∃ (s : State) (i : Instr) (t : State), nextCommand s = .step ∧ s.prog[s.pc]? = some i ∧ step s = .next t ∧
      s.pc + 1 = s.prog.length :=
  ⟨⟨midRun, .addRI (.byte .al) 10, rfl, rfl⟩,
   mk resetParams (axbx 0 60 0 0) p1 2, .subRI (.byte .al) 100, _, rfl, rfl, rfl, rfl⟩

theorem witness_StoredWordRunsAtTheNextStep : ∃ (w : StorageWord) (i : Instr), decodeWord w = .ok i :=
  ⟨0xABFF, .subRI (.byte .dl) 255, by decide⟩

theorem witness_StepOnTheEmptyProgramIsANoOp : ∃ s : State, s.prog = [] ∧ s.Inv :=
  ⟨State.reset, rfl, mk_inv (l := []) (by decide) (fun _ => rfl) rfl⟩

theorem witness_StepWhenCompletedRestarts :
    (∃ s : State, s.prog ≠ [] ∧ s.pc = s.prog.length ∧ s.params.restartMode = .resetOnly) ∧
    ∃ s : State, s.prog ≠ [] ∧ s.pc = s.prog.length ∧ s.params.restartMode = .resetAndExecute :=
  ⟨⟨mk defaultParams Regs.zero p1 3, by decide⟩, mk restartExecuting Regs.zero p1 3, by decide⟩

/-- An engine whose store holds at most two instructions. -/
def small (l : List Instr) : State := mk { defaultParams with progMax := some 2 } Regs.zero l 0

theorem witness_AppendStoresAndResets :
    (∃ (arg : AppendArg) (e : DecodeError), decodeArg arg = .error e) ∧
    (∃ (arg : AppendArg) (i : Instr) (s : State) (n : Nat), decodeArg arg = .ok i ∧ s.params.progMax = some n ∧
      s.prog.length = n) ∧
    (∃ (arg : AppendArg) (i : Instr) (s : State), decodeArg arg = .ok i ∧ s.params.progMax = some 2 ∧
      ∀ n, s.params.progMax = some n → s.prog.length < n) :=
  ⟨⟨.word 0xC000, .malformedLine, by decide⟩,
   ⟨.word 0x0000, .movRR (.wide .ax) (.wide .ax), small (p1.take 2), 2, by decide⟩,
   .text "MOV BL,1".toList, .movRI (.byte .bl) 1, small (p1.take 1), by decide, rfl,
   fun n hn => by cases hn; decide⟩

theorem witness_FailedAppendChangesNothing :
    (∃ (c : Command) (s t : State), perform c s = .next t ∧ t.response = some (.appendFailed .programFull)) ∧
    ∃ (c : Command) (s t : State), perform c s = .next t ∧ t.response = some (.appendFailed (.decode .malformedLine)) :=
  ⟨⟨.append (.word 0x0000), small (p1.take 2), _, rfl, by decide⟩, .append (.word 0xC000), midRun, _, rfl, by decide⟩

theorem witness_FailedAppendIsForgotten :
    ∃ (s t : State) (e : AppendError), step s = .next t ∧ t.response = some (.appendFailed e) :=
  ⟨midRun.setCommands [.append (.word 0xC000), .run], _, .decode .malformedLine, rfl, by decide⟩

theorem witness_RemoveLastDropsTheLast :
    (∃ s : State, s.prog = []) ∧ ∃ (s : State) (p : List Instr) (i : Instr), s.prog = p ++ [i] :=
  ⟨⟨State.reset, rfl⟩, midRun, p1.take 2, .subRI (.byte .al) 100, rfl⟩

theorem witness_MutationDiscardsExecutionState :
    (∃ s t : State, nextCommand s = .removeLast ∧ step s = .next t ∧ t.prog ≠ s.prog) ∧
    ∃ s t : State, nextCommand s = .append (.word 0) ∧ step s = .next t ∧ t.prog ≠ s.prog :=
  ⟨⟨midRun.setCommands [.removeLast], _, rfl, rfl, by decide⟩,
   midRun.setCommands [.append (.word 0)], _, rfl, rfl, by decide⟩

theorem witness_RunExecutesEveryInstructionOnce :
    (∃ s : State, s.prog ≠ [] ∧ s.params.wideOperandPolicy = .wide16) ∧
    ∃ s : State, s.prog ≠ [] ∧ s.params.wideOperandPolicy = .fault ∧ ∀ i ∈ s.prog, i.namesWide = false :=
  ⟨⟨midRun, by decide⟩, mk defaultParams Regs.zero p1 3, by decide⟩

theorem witness_RunStartsOverFromAnyState : (∃ s : State, s.prog ≠ []) ∧ ∃ s : State, s.prog = [] :=
  ⟨⟨midRun, by decide⟩, State.reset, rfl⟩

theorem witness_RunStopsAtTheFirstWideOperand : ∃ (s : State) (before after : List Instr) (i : Instr),
    s.params.wideOperandPolicy = .fault ∧ s.prog = before ++ i :: after ∧ (∀ j ∈ before, j.namesWide = false) ∧
    i.namesWide = true :=
  ⟨mk defaultParams Regs.zero [.movRI (.byte .al) 250, .addRI (.wide .ax) 10] 0, [.movRI (.byte .al) 250], [],
   .addRI (.wide .ax) 10, by decide⟩

theorem witness_RunAgreesWithSingleSteps : ∃ s t : State, s.prog ≠ [] ∧ s.commands = [] ∧ perform .run s = .next t :=
  ⟨midRun, _, by decide, rfl, rfl⟩

/-- A state for each row of the transition table. -/
theorem witness_CommandsFollowTheTransitionTable :
    (∃ s t : State, s.Inv ∧ perform .step s = .next t ∧ s.prog = []) ∧
    (∃ s t : State, s.Inv ∧ perform .step s = .next t ∧ s.execState = .idle ∧ s.prog.length = 1) ∧
    (∃ s t : State, s.Inv ∧ perform .step s = .next t ∧ s.execState = .idle ∧ 2 ≤ s.prog.length) ∧
    (∃ s t : State, s.Inv ∧ perform .step s = .next t ∧ s.execState = .running ∧ s.pc + 1 < s.prog.length) ∧
    (∃ s t : State, s.Inv ∧ perform .step s = .next t ∧ s.execState = .running ∧ s.pc + 1 = s.prog.length) ∧
    (∃ s t : State, s.Inv ∧ perform .step s = .next t ∧ s.execState = .completed ∧ s.params.restartMode = .resetOnly) ∧
    (∃ s t : State, s.Inv ∧ perform .step s = .next t ∧ s.execState = .completed ∧
      s.params.restartMode = .resetAndExecute) ∧
    (∃ s t : State, s.Inv ∧ perform .run s = .next t ∧ s.prog = []) ∧
    (∃ s t : State, s.Inv ∧ perform .run s = .next t ∧ s.prog ≠ []) ∧
    (∃ s t : State, s.Inv ∧ perform (.append (.word 0)) s = .next t ∧ t.response = some .appended) ∧
    (∃ s t : State, s.Inv ∧ perform (.append (.word 0xC000)) s = .next t ∧ t.response ≠ some .appended) :=
  ⟨⟨mk defaultParams Regs.zero [] 0, _, mk_inv (by decide) (fun _ => rfl) rfl, rfl, rfl⟩,
   ⟨mk defaultParams Regs.zero (p1.take 1) 0, _, mk_inv (by decide) (fun _ => rfl) rfl, rfl, by decide, rfl⟩,
   ⟨mk defaultParams Regs.zero p1 0, _, mk_inv (by decide) (fun _ => rfl) rfl, rfl, by decide, by decide⟩,
   ⟨midRun, _, midRun_inv, rfl, by decide, by decide⟩,
   ⟨mk defaultParams Regs.zero p1 2, _, mk_inv (by decide) (fun _ => rfl) rfl, rfl, by decide, by decide⟩,
   ⟨mk defaultParams Regs.zero p1 3, _, mk_inv (by decide) (fun _ => rfl) rfl, rfl, by decide, rfl⟩,
   ⟨mk restartExecuting Regs.zero p1 3, _, mk_inv (by decide) (fun _ => rfl) rfl, rfl, by decide, rfl⟩,
   ⟨mk defaultParams Regs.zero [] 0, _, mk_inv (by decide) (fun _ => rfl) rfl, rfl, rfl⟩,
   ⟨midRun, _, midRun_inv, rfl, by decide⟩,
   ⟨midRun, _, midRun_inv, rfl, by decide⟩,
   ⟨midRun, _, midRun_inv, rfl, by decide⟩⟩

theorem witness_StepsThatCannotStopStaySo :
    (∃ s : State, s.params.wideOperandPolicy = .wide16 ∧ ¬ s.byteOnly = true ∧ s.CannotStop) ∧
    ∃ s : State, s.params.wideOperandPolicy = .fault ∧ s.prog ≠ [] ∧ s.CannotStop :=
  ⟨⟨mk resetParams Regs.zero [.movRI (.wide .ax) 5] 0, rfl, by decide, .inl rfl⟩,
   mk defaultParams Regs.zero p1 0, rfl, by decide, .inr (by decide)⟩

theorem witness_WithoutWideFaultsEveryRunCompletes :
    (∃ s : State, s.params.wideOperandPolicy = .wide16 ∧ s.CannotStop) ∧
    ∃ s : State, s.params.wideOperandPolicy = .fault ∧ s.prog ≠ [] ∧ s.commands ≠ [] ∧ s.CannotStop :=
  ⟨⟨State.reset, rfl, .inl rfl⟩,
   (mk defaultParams Regs.zero p1 0).setCommands [.append (.text "ADD BL, AL".toList), .run], rfl, by decide, by decide,
   .inr (by decide)⟩

theorem witness_AppendsFromResetBuildTheProgram : ∃ p : Params, p.progMax = none := ⟨defaultParams, rfl⟩

theorem witness_RemovingUntilFalseEmptiesTheEngine : ∃ s : State, s.Inv ∧ s.prog ≠ [] := ⟨midRun, midRun_inv, by decide⟩

theorem witness_ResetOnlySteppingHasPeriodLenPlusOne : ∃ s : State, s.Inv ∧ s.prog ≠ [] ∧ s.pc = 0 ∧ s.commands = [] ∧
    s.CannotStop ∧ s.params.restartMode = .resetOnly :=
  ⟨mk defaultParams Regs.zero p1 0, mk_inv (by decide) (fun _ => rfl) rfl, by decide, rfl, rfl, .inr (by decide), rfl⟩

theorem witness_ResetAndExecuteSteppingHasPeriodLen : ∃ s u : State, s.Inv ∧ s.prog ≠ [] ∧ s.pc = 0 ∧ s.commands = [] ∧
    s.CannotStop ∧ s.params.restartMode = .resetAndExecute ∧ step s = .next u :=
  ⟨mk restartExecuting Regs.zero p1 0, _, mk_inv (by decide) (fun _ => rfl) rfl, by decide, rfl, rfl, .inr (by decide),
   rfl, rfl⟩

theorem witness_EncodingInvertsDecoding : ∃ (w : StorageWord) (i : Instr), decodeWord w = .ok i :=
  ⟨0x0B0B, .movRR (.byte .dl) (.byte .dl), by decide⟩

/-- One word for each way to be illegal, and one with two defects of different kinds. -/
theorem witness_IllegalWordsReportTheirFirstDefect :
    wordReservedOp 0xC000 = true ∧ wordReservedBit 0x3000 = true ∧ wordBadPadding 0x40F0 = true ∧
    (∃ w : StorageWord, (wordReservedOp w || wordReservedBit w || wordBadPadding w) = false ∧ wordUnknownDest w = true) ∧
    (∃ w : StorageWord, (wordReservedOp w || wordReservedBit w || wordBadPadding w) = false ∧
      wordUnknownDest w = false ∧ wordUnknownSource w = true) ∧
    (wordReservedBit 0x1C00 = true ∧ wordUnknownDest 0x1C00 = true) :=
  ⟨by decide, by decide, by decide, ⟨0xAFFF, by decide⟩, ⟨0x000C, by decide⟩, by decide⟩

theorem witness_OpcodeRowsSelectTheirInstruction :
    (regOfCode ((0x0B0B#16).extractLsb' 8 4).toNat = some (.byte .dl) ∧
      regOfCode ((0x0B0B#16).extractLsb' 0 4).toNat = some (.byte .dl) ∧ 0x0B0B#16 &&& 0xF0F0#16 = 0x0000#16) ∧
    0x4B0B#16 &&& 0xF0F0#16 = 0x4000#16 ∧ 0x8B0B#16 &&& 0xF0F0#16 = 0x8000#16 ∧
    0x2BFF#16 &&& 0xF000#16 = 0x2000#16 ∧ 0x6BFF#16 &&& 0xF000#16 = 0x6000#16 ∧
    0xABFF#16 &&& 0xF000#16 = 0xA000#16 := by decide

/-- A line with blanks in every place, a literal with leading zeros (vectors T5, T6) and a terminator. -/
theorem witness_LinesOfTheGrammarDecode :
    HasShape " \tMOV \tAL , 007 \r\n".toList (Op.text .mov) (RegName.text (.byte .al)) "007".toList ∧
    classifySrc "007".toList = .ok (.lit 7) :=
  ⟨⟨isToken_opText _, isToken_regText _, by simp [IsToken],
    [' ', '\t'], [' ', '\t'], [' '], [' '], [' '], ['\r', '\n'], by simp [IsBlank], by simp [IsBlank], by simp,
    by simp [IsBlank], by simp [IsBlank], by simp [IsBlank], by simp, by decide⟩, by decide⟩

theorem witness_OnlyLinesOfTheGrammarDecode :
    decodeLine "SUB CH,\t00255\n".toList = .ok (.subRI (.byte .ch) 255) := by decide

/-- A line with no shape, an unknown mnemonic before an unknown destination, an unknown destination before a bad source,
and a source of each error. -/
theorem witness_RefusedLinesReportTheirFirstDefect :
    (¬ ∃ op dest src, HasShape "MOV AL 5".toList op dest src) ∧
    (HasShape "mov ZZ,300".toList "mov".toList "ZZ".toList "300".toList ∧ ∀ o : Op, o.text ≠ "mov".toList) ∧
    (HasShape "ADD ZZ,300".toList (Op.text .add) "ZZ".toList "300".toList ∧ ∀ n : RegName, n.text ≠ "ZZ".toList) ∧
    (HasShape "ADD AL,300".toList (Op.text .add) (RegName.text (.byte .al)) "300".toList ∧
      classifySrc "300".toList = .error .invalidLiteral) ∧
    HasShape "ADD AL,ZZ".toList (Op.text .add) (RegName.text (.byte .al)) "ZZ".toList ∧
    classifySrc "ZZ".toList = .error .unknownRegister := by
  simp only [hasShape_iff]
  refine ⟨?_, ⟨by decide, ?_⟩, ⟨by decide, ?_⟩, by decide, by decide, by decide⟩
  · rintro ⟨op, dest, src, -, h⟩
    rw [show splitLine (stripTerminator "MOV AL 5".toList) = none by decide] at h
    cases h
  · intro o; cases o <;> decide
  · intro n; cases n with | _ r => cases r <;> decide

/-- Names at both ends of the ranges of letters, and characters beside them that start neither a name nor a number. -/
theorem witness_FirstCharacterClassifiesTheSource :
    (('A' ≤ 'A' ∧ 'A' ≤ 'Z') ∧ RegName.text (.wide .ax) = 'A' :: ['X']) ∧
    (('A' ≤ 'Z' ∧ 'Z' ≤ 'Z') ∧ ∀ n : RegName, n.text ≠ 'Z' :: []) ∧
    classifySrc "al".toList = .error .unknownRegister ∧ classifySrc "_".toList = .error .unknownRegister ∧
    classifySrc "@".toList = .error .malformedLine ∧ classifySrc "[".toList = .error .malformedLine ∧
    classifySrc "/".toList = .error .malformedLine ∧ classifySrc ":".toList = .error .malformedLine := by
  refine ⟨by decide, ⟨by decide, ?_⟩, by decide, by decide, by decide, by decide, by decide, by decide⟩
  intro n; cases n with | _ r => cases r <;> decide

/-- A token that begins with a digit at the boundary 255, one at 256, and one that begins with a sign. -/
theorem witness_LiteralTokensAreDecimalUpTo255 :
    isDecimalDigit '0' = true ∧ classifySrc "0255".toList = .ok (.lit 255) ∧
    classifySrc "256".toList = .error .invalidLiteral ∧ classifySrc "-5".toList = .error .invalidLiteral := by decide

end Sys2Proof.Tests
end

section
/-! PROOFS. The `MOV` family with byte operands (40_mov.md R69, R70): `exec` is `Execute` of the typed triple, its byte
branch writes what the ALU answers, and the ALU's `mov` answers the operand. -/

namespace Sys2Proof.Machine

/-- Settles O8: the literal source of the byte branch of `Execute`. -/
theorem movLiteralLoadsTheByte : Obligations.MovLiteralLoadsTheByte := by
  unfold Obligations.MovLiteralLoadsTheByte
  intro rd imm s
  calc exec (.movRI (.byte rd) imm) s
      = execute .mov (.byte rd) (.lit imm) s := exec_eq_execute _ s
    _ = .next (s.setRegs (writeByte rd (aluByte .mov (readByte rd s.regs) imm) s.regs)) :=
        execute_byte_lit .mov rd imm s
    _ = .next (s.setRegs (writeByte rd imm s.regs)) := by rw [aluByte_mov]

/-- Settles O9: the register source of the byte branch of `Execute`, read before the write, so `rd = rs` needs no case
of its own. -/
theorem movRegisterCopiesTheByte : Obligations.MovRegisterCopiesTheByte := by
  unfold Obligations.MovRegisterCopiesTheByte
  intro rd rs s
  calc exec (.movRR (.byte rd) (.byte rs)) s
      = execute .mov (.byte rd) (.reg (.byte rs)) s := exec_eq_execute _ s
    _ = .next (s.setRegs (writeByte rd (aluByte .mov (readByte rd s.regs) (readByte rs s.regs)) s.regs)) :=
        execute_byte_reg .mov rd rs s
    _ = .next (s.setRegs (writeByte rd (readByte rs s.regs) s.regs)) := by rw [aluByte_mov]

end Sys2Proof.Machine
end

section
/-! PROOFS. The `ADD` and `SUB` family with byte operands (41_add_sub.md R72 to R75): the byte branch of `Execute` writes
what the ALU answers, and that is the saturated sum, or the difference over the integers cut off at 0. -/

namespace Sys2Proof.Machine

/-- The ALU's difference as R74 and R75 write it: over the integers, then the maximum with 0. -/
theorem aluByte_sub_eq_ofInt_max (a b : Byte) :
    aluByte .sub a b = BitVec.ofInt 8 (max ((a.toNat : Int) - b.toNat) 0) := by
  have truncated : max ((a.toNat : Int) - b.toNat) 0 = ((a.toNat - b.toNat : Nat) : Int) := by omega
  rw [truncated, BitVec.ofInt_natCast, aluByte_sub]

/-- Settles O10: the byte `ADD` writes is the ALU's saturated sum with the literal. -/
theorem addLiteralSaturatesAt255 : Obligations.AddLiteralSaturatesAt255 := by
  unfold Obligations.AddLiteralSaturatesAt255
  intro rd imm s
  rw [← aluByte_add]
  exact (exec_eq_execute _ s).trans (execute_byte_lit .add rd imm s)

/-- Settles O11: both operands of the ALU's sum are read from the registers before the write, so `rd = rs` needs no case
of its own. -/
theorem addRegisterSaturatesAt255 : Obligations.AddRegisterSaturatesAt255 := by
  unfold Obligations.AddRegisterSaturatesAt255
  intro rd rs s
  rw [← aluByte_add]
  exact (exec_eq_execute _ s).trans (execute_byte_reg .add rd rs s)

/-- Settles O12: the byte `SUB` writes is the ALU's difference with the literal, cut off at 0. -/
theorem subLiteralSaturatesAt0 : Obligations.SubLiteralSaturatesAt0 := by
  unfold Obligations.SubLiteralSaturatesAt0
  intro rd imm s
  rw [← aluByte_sub_eq_ofInt_max]
  exact (exec_eq_execute _ s).trans (execute_byte_lit .sub rd imm s)

/-- Settles O13: both operands of the ALU's difference are read from the registers before the write, so `rd = rs` needs
no case of its own. -/
theorem subRegisterSaturatesAt0 : Obligations.SubRegisterSaturatesAt0 := by
  unfold Obligations.SubRegisterSaturatesAt0
  intro rd rs s
  rw [← aluByte_sub_eq_ofInt_max]
  exact (exec_eq_execute _ s).trans (execute_byte_reg .sub rd rs s)

end Sys2Proof.Machine
end

section
/-! PROOFS. Editing the Program (45_engine_commands.md R88, R89): `REMOVE_LAST` by the shape of the Program, and what a
command that changed the Program did. -/

namespace Sys2Proof.Machine

/-- `REMOVE_LAST` on the empty Program only replies. -/
theorem removeLastCommand_of_nil {s : State} (h : s.prog = []) : removeLastCommand s = s.respond (.removed false) := by
  rw [removeLastCommand, h]

/-- `REMOVE_LAST` on any other Program drops its last instruction and restarts. -/
theorem removeLastCommand_of_concat {s : State} {p : List Instr} {i : Instr} (h : s.prog = p ++ [i]) :
    removeLastCommand s = ((s.setProg p).restart).respond (.removed true) := by
  rw [removeLastCommand]
  cases hp : s.prog with
  | nil => simp [hp] at h
  | cons a l => simp only [← hp, h, List.dropLast_concat]

/-- A mutation (R23, R89): a command that changed the Program was an `APPEND` that stored one instruction last or a
`REMOVE_LAST` that took the last one away, and it restarted the engine. -/
theorem perform_next_of_prog_ne {c : Command} {s t : State} (h : perform c s = .next t) (hne : t.prog ≠ s.prog) :
    ∃ p r, t = ((s.setProg p).restart).respond r ∧
      (((∃ arg, c = .append arg) ∧ ∃ i, p = s.prog ++ [i]) ∨ (c = .removeLast ∧ ∃ i, s.prog = p ++ [i])) := by
  obtain ⟨r, rfl⟩ | ⟨arg, i, hc, -, -, ht⟩ | ⟨hc, hp, ht⟩ | ⟨-, -, x, r, rfl⟩ | ⟨-, -, -, r, rfl⟩ |
    ⟨-, -, -, x, r, rfl⟩ | ⟨-, -, x, r, rfl⟩ := perform_next h
  case inr.inl => exact ⟨_, _, ht, .inl ⟨⟨arg, hc⟩, i, rfl⟩⟩
  case inr.inr.inl => exact ⟨_, _, ht, .inr ⟨hc, s.prog.getLast hp, (List.dropLast_concat_getLast hp).symm⟩⟩
  all_goals exact absurd rfl hne

/-- Settles O32: one equation of `REMOVE_LAST` per shape of the Program. -/
theorem removeLastDropsTheLast : Obligations.RemoveLastDropsTheLast := by
  unfold Obligations.RemoveLastDropsTheLast
  refine fun s => ⟨fun h => ?_, fun p i h => ?_⟩
  · rw [perform, removeLastCommand_of_nil h]
  · rw [perform, removeLastCommand_of_concat h]; rfl

/-- Settles O33: the step is a mutation, so it restarted the engine, and a restarted engine is zero and `Idle`. -/
theorem mutationDiscardsExecutionState : Obligations.MutationDiscardsExecutionState := by
  unfold Obligations.MutationDiscardsExecutionState
  intro s t h hne
  rw [step_eq] at h
  obtain ⟨p, r, rfl, hedit⟩ := perform_next_of_prog_ne h hne
  exact ⟨by simp, by simp, by simp, by simp, hedit⟩

end Sys2Proof.Machine
end

section
/-! PROOFS. Failed commands (60_exceptions.md R105): each command answers with a result of its own kind, so a failure is an
`APPEND`'s, and an `APPEND` that fails is rejected with nothing else changed. -/

namespace Sys2Proof.Machine

/-- `APPEND` either rejects the command or answers `Ok`, so one that answers with a failure was rejected. -/
theorem appendCommand_eq_reject {arg : AppendArg} {s : State} {e : AppendError}
    (h : (appendCommand arg s).response = some (.appendFailed e)) : appendCommand arg s = s.reject e := by
  rw [appendCommand] at h ⊢
  cases hd : decodeArg arg with
  | error d => rw [hd] at h; cases h; rfl
  | ok i =>
    rw [hd] at h; dsimp only at h ⊢
    cases hf : s.isFull with
    | true => rw [hf] at h; cases h; rfl
    | false => rw [hf] at h; cases h

/-- `REMOVE_LAST` answers whether it removed an instruction. -/
theorem removeLastCommand_response (s : State) : ∃ b, (removeLastCommand s).response = some (.removed b) := by
  cases hp : s.prog with
  | nil => exact ⟨false, by rw [removeLastCommand_of_nil hp]; rfl⟩
  | cons i l => exact ⟨true, by rw [removeLastCommand, hp]; rfl⟩

/-- `STEP` answers with the result of one step, whatever it did. -/
theorem stepCommand_response {s t : State} (h : stepCommand s = .next t) : ∃ r, t.response = some (.stepped r) := by
  obtain ⟨-, rfl⟩ | ⟨i, -, he⟩ | ⟨-, -, -, rfl⟩ | ⟨i, -, -, -, he⟩ := stepCommand_next h
  · exact ⟨_, rfl⟩
  · obtain ⟨x, -, rfl⟩ := stepExecuting_next he
    exact ⟨_, rfl⟩
  · exact ⟨_, rfl⟩
  · obtain ⟨x, -, rfl⟩ := stepExecuting_next he
    exact ⟨_, rfl⟩

/-- `RUN` answers with the results of its steps. -/
theorem runCommand_response {s t : State} (h : runCommand s = .next t) : ∃ rs, t.response = some (.ran rs) := by
  obtain ⟨-, rfl⟩ | ⟨-, x, rs, -, rfl⟩ := runCommand_next h <;> exact ⟨_, rfl⟩

/-- A command that failed is an `APPEND`, and all it did is to return the failure. -/
theorem perform_next_of_appendFailed {c : Command} {s t : State} {e : AppendError} (h : perform c s = .next t)
    (hr : t.response = some (.appendFailed e)) : (∃ arg, c = .append arg) ∧ t = s.reject e := by
  cases c with
  | append arg => cases h; exact ⟨⟨arg, rfl⟩, appendCommand_eq_reject hr⟩
  | removeLast =>
    cases h
    obtain ⟨b, hb⟩ := removeLastCommand_response s
    rw [hb] at hr; cases hr
  | step =>
    obtain ⟨r, hs⟩ := stepCommand_response h
    rw [hs] at hr; cases hr
  | run =>
    obtain ⟨rs, hs⟩ := runCommand_response h
    rw [hs] at hr; cases hr
  | snapshot => cases h; cases hr

/-- Settles O30: the command is a rejected `APPEND`, and a rejection keeps every field but the result. -/
theorem failedAppendChangesNothing : Obligations.FailedAppendChangesNothing := by
  unfold Obligations.FailedAppendChangesNothing
  intro c s t e h hr
  obtain ⟨happend, rfl⟩ := perform_next_of_appendFailed h hr
  exact ⟨happend, State.reject_engine s e, State.reject_params s e, State.reject_commands s e⟩

end Sys2Proof.Machine
end

section
/-! PROOFS. The storage word (30_encoding.md R56 to R63): the decoder's fields are the bit ranges of the word, an
instruction's fields assemble its word, and decoding answers exactly the instruction whose fields the word has. -/

namespace Sys2Proof

/-! ### Codes -/

theorem opOfCode_eq_some {n : Nat} {o : Op} : opOfCode n = some o ↔ n = o.code := by
  constructor
  · intro h
    unfold opOfCode at h
    split at h <;> cases h <;> rfl
  · rintro rfl
    cases o <;> rfl

theorem regOfCode_eq_some {n : Nat} {r : RegName} : regOfCode n = some r ↔ n = r.code := by
  constructor
  · intro h
    unfold regOfCode at h
    split at h <;> cases h <;> rfl
  · rintro rfl
    cases r with | _ r => cases r <;> rfl

theorem Op.code_le_two (o : Op) : o.code ≤ 2 := by cases o <;> decide

theorem RegName.code_le_eleven (r : RegName) : r.code ≤ 11 := by cases r with | _ r => cases r <;> decide

/-- Only the code `0b11` is reserved (R57). -/
theorem opOfCode_eq_none {n : Nat} (h : n < 4) : opOfCode n = none ↔ n = 3 := by
  revert n; decide

/-- Only the codes 12 to 15 name no register (R58). -/
theorem regOfCode_eq_none {n : Nat} (h : n < 16) : regOfCode n = none ↔ 11 < n := by
  revert n; decide

/-! ### Bit fields -/

theorem bitField_lt (w : StorageWord) (lo len : Nat) : bitField w lo len < 2 ^ len :=
  Nat.mod_lt _ (Nat.two_pow_pos len)

/-- The bit field is the extracted bit vector, read as a natural. -/
theorem bitField_eq_extractLsb' (w : StorageWord) (lo len : Nat) : bitField w lo len = (w.extractLsb' lo len).toNat := by
  rw [BitVec.extractLsb'_toNat, Nat.shiftRight_eq_div_pow, bitField]

theorem ofNat_bitField_low_byte (w : StorageWord) : BitVec.ofNat 8 (bitField w 0 8) = w.extractLsb' 0 8 := by
  rw [bitField_eq_extractLsb', BitVec.ofNat_toNat, BitVec.setWidth_eq]

theorem getLsbD_eq_bitField (w : StorageWord) (k : Nat) : w.getLsbD k = decide (bitField w k 1 = 1) := by
  rw [BitVec.getLsbD, Nat.testBit_eq_decide_div_mod_eq, bitField, Nat.pow_one]

/-- A mask that is all ones in a field fixes the field of the masked word. -/
theorem bitField_of_mask {w mask val : StorageWord} (h : w &&& mask = val) (lo len : Nat)
    (hm : mask.extractLsb' lo len = BitVec.allOnes len) : bitField w lo len = (val.extractLsb' lo len).toNat := by
  rw [bitField_eq_extractLsb', ← h, BitVec.extractLsb'_and, hm, BitVec.and_allOnes]

/-- The number whose fields `op`, `I`, reserved bit, `dest` and low byte are given (R59). -/
def assemble (op fmt dest low : Nat) : Nat := op * 2 ^ 14 + fmt * 2 ^ 13 + dest * 2 ^ 8 + low

/-- A word with the reserved bit clear is assembled from its fields. -/
theorem assemble_bitFields {w : StorageWord} (h : bitField w 12 1 = 0) :
    BitVec.ofNat 16 (assemble (bitField w 14 2) (bitField w 13 1) (bitField w 8 4) (bitField w 0 8)) = w := by
  apply BitVec.eq_of_toNat_eq
  have := w.isLt
  simp only [bitField, assemble, BitVec.toNat_ofNat] at h ⊢
  omega

/-- The fields of an assembled word are those it was assembled from. -/
theorem bitFields_assemble {op fmt dest low : Nat} (ho : op < 4) (hf : fmt < 2) (hd : dest < 16) (hl : low < 256) :
    bitField (BitVec.ofNat 16 (assemble op fmt dest low)) 14 2 = op ∧
    bitField (BitVec.ofNat 16 (assemble op fmt dest low)) 13 1 = fmt ∧
    bitField (BitVec.ofNat 16 (assemble op fmt dest low)) 12 1 = 0 ∧
    bitField (BitVec.ofNat 16 (assemble op fmt dest low)) 8 4 = dest ∧
    bitField (BitVec.ofNat 16 (assemble op fmt dest low)) 0 8 = low := by
  simp only [bitField, assemble, BitVec.toNat_ofNat]
  omega

/-- The low byte of a word is its two low half bytes. -/
theorem bitField_low_byte (w : StorageWord) : bitField w 0 8 = bitField w 4 4 * 16 + bitField w 0 4 := by
  simp only [bitField]; omega

/-! ### The typed triple -/

@[simp] theorem mkInstr_op (o : Op) (d : RegName) (s : Src) : (mkInstr o d s).op = o := by cases o <;> cases s <;> rfl
@[simp] theorem mkInstr_dest (o : Op) (d : RegName) (s : Src) : (mkInstr o d s).dest = d := by
  cases o <;> cases s <;> rfl
@[simp] theorem mkInstr_src (o : Op) (d : RegName) (s : Src) : (mkInstr o d s).src = s := by cases o <;> cases s <;> rfl

/-- An instruction is the triple of its fields. -/
@[simp] theorem mkInstr_fields (i : Instr) : mkInstr i.op i.dest i.src = i := by cases i <;> rfl

/-- The low byte of an instruction's word: the literal, or the code of the source register (R59). -/
def Src.field : Src → Nat
  | .reg n => n.code
  | .lit v => v.toNat

/-- The format bit of an instruction's word: 1 for a literal source (R59). -/
def Src.formatBit : Src → Nat
  | .reg _ => 0
  | .lit _ => 1

theorem Src.field_lt (s : Src) : s.field < 256 := by
  cases s with
  | reg n => exact Nat.lt_of_le_of_lt n.code_le_eleven (by decide)
  | lit v => exact v.isLt

theorem Src.formatBit_lt (s : Src) : s.formatBit < 2 := by cases s <;> simp [formatBit]

/-- The encoder assembles the fields of the instruction. -/
theorem encode_eq_assemble (i : Instr) :
    encode i = BitVec.ofNat 16 (assemble i.op.code i.src.formatBit i.dest.code i.src.field) := by
  rw [encode]
  cases i.src with
  | reg n => simp only [assemble, Src.formatBit, Src.field, Nat.zero_mul, Nat.add_zero]
  | lit v => simp only [assemble, Src.formatBit, Src.field, Nat.one_mul]

/-! ### The decoder -/

/-- What the source fields of a word say: the literal of format RI, or the register of format RR with clear padding. -/
def WordSource (w : StorageWord) (s : Src) : Prop :=
  (bitField w 13 1 = 1 ∧ s = .lit (BitVec.ofNat 8 (bitField w 0 8))) ∨
  (bitField w 13 1 = 0 ∧ bitField w 4 4 = 0 ∧ ∃ n, regOfCode (bitField w 0 4) = some n ∧ s = .reg n)

theorem bit_eq_zero_or_one (w : StorageWord) (k : Nat) : bitField w k 1 = 0 ∨ bitField w k 1 = 1 := by
  have := bitField_lt w k 1
  omega

/-- A word decodes exactly when its operation and destination codes are known, its reserved bit is clear and its source
fields say something; and then to that triple. -/
theorem decodeWord_eq_ok {w : StorageWord} {i : Instr} :
    decodeWord w = .ok i ↔
      opOfCode (bitField w 14 2) = some i.op ∧ bitField w 12 1 = 0 ∧ regOfCode (bitField w 8 4) = some i.dest ∧
      WordSource w i.src := by
  constructor
  · intro h
    rw [decodeWord] at h
    cases ho : opOfCode (bitField w 14 2) with
    | none => rw [ho] at h; cases h
    | some o =>
    rw [ho] at h; dsimp only at h
    rcases bit_eq_zero_or_one w 12 with h12 | h12
    case inr => rw [if_pos h12] at h; cases h
    rw [if_neg (by omega)] at h
    split at h
    case isTrue => cases h
    case isFalse hpad =>
    cases hd : regOfCode (bitField w 8 4) with
    | none => rw [hd] at h; cases h
    | some d =>
    rw [hd] at h; dsimp only at h
    rcases bit_eq_zero_or_one w 13 with h13 | h13
    · rw [if_neg (by omega)] at h
      cases hn : regOfCode (bitField w 0 4) with
      | none => rw [hn] at h; cases h
      | some n =>
        rw [hn] at h; cases h
        exact ⟨by simp, h12, by simp, .inr ⟨h13, by omega, n, hn, by simp⟩⟩
    · rw [if_pos h13] at h; cases h
      exact ⟨by simp, h12, by simp, .inl ⟨h13, by simp⟩⟩
  · rintro ⟨ho, h12, hd, hsrc⟩
    rw [decodeWord, ho, hd]; dsimp only
    rcases hsrc with ⟨h13, hs⟩ | ⟨h13, hpad, n, hn, hs⟩
    · rw [if_neg (by omega), if_neg (by omega), if_pos h13, ← hs, mkInstr_fields]
    · have hi : mkInstr i.op i.dest (.reg n) = i := by rw [← hs, mkInstr_fields]
      rw [if_neg (by omega), if_neg (by omega), if_neg (by omega), hn, ← hi]; simp only [mkInstr_op, mkInstr_dest]

/-- The source fields of an encoded instruction say its source. -/
theorem wordSource_of_fields {w : StorageWord} {s : Src} (hf : bitField w 13 1 = s.formatBit)
    (hl : bitField w 0 8 = s.field) : WordSource w s := by
  cases s with
  | lit v => exact .inl ⟨hf, by rw [hl, Src.field, BitVec.ofNat_toNat, BitVec.setWidth_eq]⟩
  | reg n =>
    have hbyte := bitField_low_byte w
    have hcode := n.code_le_eleven
    have hlow := bitField_lt w 0 4
    rw [Src.field] at hl
    exact .inr ⟨hf, by omega, n, regOfCode_eq_some.mpr (by omega), rfl⟩

/-- What the source fields of a word say fixes them. -/
theorem fields_of_wordSource {w : StorageWord} {s : Src} (h : WordSource w s) :
    bitField w 13 1 = s.formatBit ∧ bitField w 0 8 = s.field := by
  rcases h with ⟨h13, rfl⟩ | ⟨h13, hpad, n, hn, rfl⟩
  · exact ⟨h13, by rw [Src.field, BitVec.toNat_ofNat, Nat.mod_eq_of_lt (bitField_lt w 0 8)]⟩
  · have hn := regOfCode_eq_some.mp hn
    exact ⟨h13, by rw [Src.field, bitField_low_byte, hpad, hn, Nat.zero_mul, Nat.zero_add]⟩

/-- Settles O47: the fields of the encoded word are those of the instruction. -/
theorem decodingInvertsEncoding : Obligations.DecodingInvertsEncoding := by
  unfold Obligations.DecodingInvertsEncoding
  intro i
  have ho := i.op.code_le_two
  have hd := i.dest.code_le_eleven
  obtain ⟨hop, hfmt, hres, hdest, hlow⟩ := bitFields_assemble (op := i.op.code) (fmt := i.src.formatBit)
    (dest := i.dest.code) (low := i.src.field) (by omega) i.src.formatBit_lt (by omega) i.src.field_lt
  rw [encode_eq_assemble]
  exact decodeWord_eq_ok.mpr ⟨opOfCode_eq_some.mpr hop, hres, regOfCode_eq_some.mpr hdest, wordSource_of_fields hfmt hlow⟩

/-- Settles O48: the fields of the decoded instruction are those of the word, and the reserved bit is clear. -/
theorem encodingInvertsDecoding : Obligations.EncodingInvertsDecoding := by
  unfold Obligations.EncodingInvertsDecoding
  intro w i h
  obtain ⟨hop, hres, hdest, hsrc⟩ := decodeWord_eq_ok.mp h
  obtain ⟨hfmt, hlow⟩ := fields_of_wordSource hsrc
  rw [encode_eq_assemble, ← opOfCode_eq_some.mp hop, ← regOfCode_eq_some.mp hdest, ← hfmt, ← hlow]
  exact assemble_bitFields hres

/-! ### Illegal words (R63) -/

theorem wordReservedOp_iff (w : StorageWord) : wordReservedOp w = true ↔ bitField w 14 2 = 3 := by
  rw [wordReservedOp, beq_iff_eq, bitField_eq_extractLsb', ← BitVec.toNat_inj]; rfl

theorem wordReservedBit_iff (w : StorageWord) : wordReservedBit w = true ↔ bitField w 12 1 = 1 := by
  rw [wordReservedBit, getLsbD_eq_bitField, decide_eq_true_eq]

theorem wordBadPadding_iff (w : StorageWord) :
    wordBadPadding w = true ↔ bitField w 13 1 = 0 ∧ bitField w 4 4 ≠ 0 := by
  have h := bit_eq_zero_or_one w 13
  rw [wordBadPadding, Bool.and_eq_true, Bool.not_eq_true', bne_iff_ne, getLsbD_eq_bitField, decide_eq_false_iff_not,
    bitField_eq_extractLsb' w 4 4, ne_eq, ← BitVec.toNat_inj]
  exact and_congr_left fun _ => by omega

theorem wordUnknownDest_iff (w : StorageWord) : wordUnknownDest w = true ↔ regOfCode (bitField w 8 4) = none := by
  rw [wordUnknownDest, decide_eq_true_eq, regOfCode_eq_none (bitField_lt w 8 4), bitField_eq_extractLsb']

theorem wordUnknownSource_iff (w : StorageWord) :
    wordUnknownSource w = true ↔ bitField w 13 1 = 0 ∧ regOfCode (bitField w 0 4) = none := by
  have h := bit_eq_zero_or_one w 13
  rw [wordUnknownSource, Bool.and_eq_true, Bool.not_eq_true', decide_eq_true_eq, getLsbD_eq_bitField,
    decide_eq_false_iff_not, regOfCode_eq_none (bitField_lt w 0 4), bitField_eq_extractLsb' w 0 4]
  exact and_congr_left fun _ => by omega

/-- One of the three defects of a word's form: the reserved operation, the reserved bit, padding that is not clear. -/
def WordMalformed (w : StorageWord) : Prop :=
  bitField w 14 2 = 3 ∨ bitField w 12 1 = 1 ∨ (bitField w 13 1 = 0 ∧ bitField w 4 4 ≠ 0)

/-- One of the two unknown register codes: the destination's, or the source's in format RR. -/
def WordUnknownRegister (w : StorageWord) : Prop :=
  regOfCode (bitField w 8 4) = none ∨ (bitField w 13 1 = 0 ∧ regOfCode (bitField w 0 4) = none)

theorem wordMalformed_iff (w : StorageWord) :
    (wordReservedOp w || wordReservedBit w || wordBadPadding w) = true ↔ WordMalformed w := by
  rw [Bool.or_eq_true, Bool.or_eq_true, or_assoc, wordReservedOp_iff, wordReservedBit_iff, wordBadPadding_iff,
    WordMalformed]

theorem wordUnknownRegister_iff (w : StorageWord) :
    (wordUnknownDest w || wordUnknownSource w) = true ↔ WordUnknownRegister w := by
  rw [Bool.or_eq_true, wordUnknownDest_iff, wordUnknownSource_iff, WordUnknownRegister]

/-- A word is legal when it has none of the five defects. -/
theorem wordLegal_iff (w : StorageWord) : wordLegal w = true ↔ ¬ WordMalformed w ∧ ¬ WordUnknownRegister w := by
  rw [← wordMalformed_iff, ← wordUnknownRegister_iff]
  simp [wordLegal, and_assoc]

/-- A defect of form is `MalformedLine`, before any register code is looked at. -/
theorem decodeWord_malformed {w : StorageWord} (h : WordMalformed w) : decodeWord w = .error .malformedLine := by
  rw [decodeWord]
  cases ho : opOfCode (bitField w 14 2) with
  | none => rfl
  | some o =>
    dsimp only
    rcases h with h | h | h
    · rw [(opOfCode_eq_none (bitField_lt w 14 2)).mpr h] at ho; cases ho
    · rw [if_pos h]
    · rw [if_pos h, ite_self]

/-- The operation of a word without a defect of form is known, and both checks of form pass. -/
theorem op_known_of_not_malformed {w : StorageWord} (h : ¬ WordMalformed w) :
    (∃ o, opOfCode (bitField w 14 2) = some o) ∧ bitField w 12 1 = 0 ∧ (bitField w 13 1 = 0 → bitField w 4 4 = 0) := by
  simp only [WordMalformed, not_or, not_and, not_not] at h
  obtain ⟨hop, hres, hpad⟩ := h
  have hop := mt (opOfCode_eq_none (bitField_lt w 14 2)).mp hop
  exact ⟨Option.ne_none_iff_exists'.mp hop, (bit_eq_zero_or_one w 12).resolve_right hres, hpad⟩

/-- An unknown register code in a word without a defect of form is `UnknownRegister`. -/
theorem decodeWord_unknownRegister {w : StorageWord} (hform : ¬ WordMalformed w) (h : WordUnknownRegister w) :
    decodeWord w = .error .unknownRegister := by
  obtain ⟨⟨o, ho⟩, hres, hpad⟩ := op_known_of_not_malformed hform
  rw [decodeWord, ho]; dsimp only
  rw [if_neg (by omega), if_neg (fun hp => hp.2 (hpad hp.1))]
  cases hd : regOfCode (bitField w 8 4) with
  | none => rfl
  | some d =>
    obtain ⟨h13, hn⟩ := h.resolve_left (by simp [hd])
    dsimp only; rw [if_neg (by omega), hn]

/-- Every field of a word without a defect is known, so it decodes. -/
theorem decodeWord_of_no_defect {w : StorageWord} (hform : ¬ WordMalformed w) (hreg : ¬ WordUnknownRegister w) :
    ∃ i, decodeWord w = .ok i := by
  obtain ⟨⟨o, ho⟩, hres, hpad⟩ := op_known_of_not_malformed hform
  simp only [WordUnknownRegister, not_or, not_and] at hreg
  obtain ⟨hdest, hsrc⟩ := hreg
  obtain ⟨d, hd⟩ := Option.ne_none_iff_exists'.mp hdest
  have hs : ∃ s, WordSource w s := by
    rcases bit_eq_zero_or_one w 13 with h13 | h13
    · obtain ⟨n, hn⟩ := Option.ne_none_iff_exists'.mp (hsrc h13)
      exact ⟨_, .inr ⟨h13, hpad h13, n, hn, rfl⟩⟩
    · exact ⟨_, .inl ⟨h13, rfl⟩⟩
  obtain ⟨s, hs⟩ := hs
  exact ⟨mkInstr o d s, decodeWord_eq_ok.mpr ⟨by simp [ho], hres, by simp [hd], by simpa using hs⟩⟩

/-- Settles O50: the five conditions of R63 are the decoder's five checks, in its order. -/
theorem illegalWordsReportTheirFirstDefect : Obligations.IllegalWordsReportTheirFirstDefect := by
  unfold Obligations.IllegalWordsReportTheirFirstDefect
  intro w
  rw [← Bool.not_eq_true, wordMalformed_iff, wordUnknownRegister_iff]
  exact ⟨decodeWord_malformed, decodeWord_unknownRegister⟩

/-- Settles O49: a defect is an error, and without one every field is known. -/
theorem legalWordsAreThoseThatDecode : Obligations.LegalWordsAreThoseThatDecode := by
  unfold Obligations.LegalWordsAreThoseThatDecode
  intro w
  rw [wordLegal_iff]
  constructor
  · rintro ⟨hform, hreg⟩
    exact decodeWord_of_no_defect hform hreg
  · rintro ⟨i, hi⟩
    have hform : ¬ WordMalformed w := fun h => by rw [decodeWord_malformed h] at hi; cases hi
    exact ⟨hform, fun h => by rw [decodeWord_unknownRegister hform h] at hi; cases hi⟩

/-! ### The opcode map (R62) -/

/-- A row of format RR: mask `0xF0F0` fixes the operation, the format bit, the reserved bit and the padding. -/
theorem decodeWord_of_row_RR {w val : StorageWord} {o : Op} {d n : RegName} (h : w &&& 0xF0F0#16 = val)
    (hop : (val.extractLsb' 14 2).toNat = o.code) (hfmt : (val.extractLsb' 13 1).toNat = 0)
    (hres : (val.extractLsb' 12 1).toNat = 0) (hpad : (val.extractLsb' 4 4).toNat = 0)
    (hd : regOfCode (w.extractLsb' 8 4).toNat = some d) (hn : regOfCode (w.extractLsb' 0 4).toNat = some n) :
    decodeWord w = .ok (mkInstr o d (.reg n)) := by
  rw [← bitField_eq_extractLsb'] at hd hn
  have hop : bitField w 14 2 = o.code := (bitField_of_mask h 14 2 (by decide)).trans hop
  have hfmt : bitField w 13 1 = 0 := (bitField_of_mask h 13 1 (by decide)).trans hfmt
  have hres : bitField w 12 1 = 0 := (bitField_of_mask h 12 1 (by decide)).trans hres
  have hpad : bitField w 4 4 = 0 := (bitField_of_mask h 4 4 (by decide)).trans hpad
  exact decodeWord_eq_ok.mpr ⟨by simp [opOfCode_eq_some, hop], hres, by simp [hd], .inr ⟨hfmt, hpad, n, hn, by simp⟩⟩

/-- A row of format RI: mask `0xF000` fixes the operation, the format bit and the reserved bit. -/
theorem decodeWord_of_row_RI {w val : StorageWord} {o : Op} {d : RegName} (h : w &&& 0xF000#16 = val)
    (hop : (val.extractLsb' 14 2).toNat = o.code) (hfmt : (val.extractLsb' 13 1).toNat = 1)
    (hres : (val.extractLsb' 12 1).toNat = 0) (hd : regOfCode (w.extractLsb' 8 4).toNat = some d) :
    decodeWord w = .ok (mkInstr o d (.lit (w.extractLsb' 0 8))) := by
  rw [← bitField_eq_extractLsb'] at hd
  have hop : bitField w 14 2 = o.code := (bitField_of_mask h 14 2 (by decide)).trans hop
  have hfmt : bitField w 13 1 = 1 := (bitField_of_mask h 13 1 (by decide)).trans hfmt
  have hres : bitField w 12 1 = 0 := (bitField_of_mask h 12 1 (by decide)).trans hres
  exact decodeWord_eq_ok.mpr ⟨by simp [opOfCode_eq_some, hop], hres, by simp [hd],
    .inl ⟨hfmt, by rw [mkInstr_src, ofNat_bitField_low_byte]⟩⟩

/-- Settles O51: each row's match value has the operation code, the format bit and clear reserved bits of its row. -/
theorem opcodeRowsSelectTheirInstruction : Obligations.OpcodeRowsSelectTheirInstruction := by
  unfold Obligations.OpcodeRowsSelectTheirInstruction
  intro w d hd
  refine ⟨fun n hn => ⟨fun h => ?_, fun h => ?_, fun h => ?_⟩, fun h => ?_, fun h => ?_, fun h => ?_⟩
  · exact decodeWord_of_row_RR (o := .mov) h (by decide) (by decide) (by decide) (by decide) hd hn
  · exact decodeWord_of_row_RR (o := .add) h (by decide) (by decide) (by decide) (by decide) hd hn
  · exact decodeWord_of_row_RR (o := .sub) h (by decide) (by decide) (by decide) (by decide) hd hn
  · exact decodeWord_of_row_RI (o := .mov) h (by decide) (by decide) (by decide) hd
  · exact decodeWord_of_row_RI (o := .add) h (by decide) (by decide) (by decide) hd
  · exact decodeWord_of_row_RI (o := .sub) h (by decide) (by decide) (by decide) hd

/-- Settles O52: seven closed words, decoded. -/
theorem wordsOfTheSpecDecode : Obligations.WordsOfTheSpecDecode := by
  unfold Obligations.WordsOfTheSpecDecode
  decide

end Sys2Proof
end

section
/-! PROOFS. The text line (30_encoding.md R48 to R52, R65): a line of the grammar's shape is decided by its three tokens, a
line of another shape is refused, and the first character of a source token decides how it is read. -/

namespace Sys2Proof

/-! ### Lines -/

/-- Settles O53: the mnemonic and the register name read back, so the three tokens of the shape decide. -/
theorem linesOfTheGrammarDecode : Obligations.LinesOfTheGrammarDecode := by
  unfold Obligations.LinesOfTheGrammarDecode
  intro line tok o d src hshape hsrc
  rw [decodeLine_of_shape hshape, opOfText_text, regOfText_text, hsrc]

/-- A line of another shape, a refused character among the reasons, is a `MalformedLine`. -/
theorem decodeLine_of_no_shape {line : Line} (h : ¬ ∃ op dest src, HasShape line op dest src) :
    decodeLine line = .error .malformedLine := by
  rw [decodeLine]
  cases ha : (stripTerminator line).all isAllowedChar with
  | false => rfl
  | true =>
    cases hs : splitLine (stripTerminator line) with
    | none => rfl
    | some toks =>
      obtain ⟨op, dest, src⟩ := toks
      exact absurd ⟨op, dest, src, (hasShape_iff ..).mpr ⟨ha, hs⟩⟩ h

theorem opOfText_eq_none {tok : Line} : opOfText tok = none ↔ ∀ o : Op, o.text ≠ tok := by
  rw [Option.eq_none_iff_forall_ne_some]
  exact forall_congr' fun o => not_congr ((opOfText_eq_some tok o).trans eq_comm)

theorem regOfText_eq_none {tok : Line} : regOfText tok = none ↔ ∀ n : RegName, n.text ≠ tok := by
  rw [Option.eq_none_iff_forall_ne_some]
  exact forall_congr' fun n => not_congr ((regOfText_eq_some tok n).trans eq_comm)

/-- Settles O54: a line that decodes has the shape, and each of its tokens passed its check. -/
theorem onlyLinesOfTheGrammarDecode : Obligations.OnlyLinesOfTheGrammarDecode := by
  unfold Obligations.OnlyLinesOfTheGrammarDecode
  intro line i h
  by_cases hshape : ∃ op dest src, HasShape line op dest src
  · obtain ⟨op, dest, src, hshape⟩ := hshape
    rw [decodeLine_of_shape hshape] at h
    cases ho : opOfText op with
    | none => rw [ho] at h; cases h
    | some o =>
    cases hd : regOfText dest with
    | none => rw [ho, hd] at h; cases h
    | some d =>
    cases hs : classifySrc src with
    | error e => rw [ho, hd, hs] at h; cases h
    | ok s =>
      rw [ho, hd, hs] at h; cases h
      rw [(opOfText_eq_some op o).mp ho, (regOfText_eq_some dest d).mp hd] at hshape
      exact ⟨src, by rwa [mkInstr_op, mkInstr_dest], by rwa [mkInstr_src]⟩
  · rw [decodeLine_of_no_shape hshape] at h; cases h

/-- Settles O55: the shape first, then the three tokens in their order. -/
theorem refusedLinesReportTheirFirstDefect : Obligations.RefusedLinesReportTheirFirstDefect := by
  unfold Obligations.RefusedLinesReportTheirFirstDefect
  refine fun line => ⟨decodeLine_of_no_shape, fun op dest src h ho => ?_, fun o dest src h hd => ?_,
    fun o d src e h he => ?_⟩
  · rw [decodeLine_of_shape h, opOfText_eq_none.mpr ho]
  · rw [decodeLine_of_shape h, opOfText_text, regOfText_eq_none.mpr hd]
  · rw [decodeLine_of_shape h, opOfText_text, regOfText_text, he]

/-- The printed source operand is a token of the grammar. -/
theorem isToken_printSrc (s : Src) : IsToken (printSrc s) := by
  obtain ⟨hne, htok, hallowed⟩ := printSrc_chars s
  exact (isToken_iff _).mpr ⟨hne, List.all_eq_true.mp htok, List.all_eq_true.mp hallowed⟩

/-- The printed form has the grammar's shape: one blank after the mnemonic, one after the comma, no terminator (R65). -/
theorem printInstr_hasShape (i : Instr) : HasShape (printInstr i) i.op.text i.dest.text (printSrc i.src) :=
  ⟨isToken_opText _, isToken_regText _, isToken_printSrc _, [], [' '], [], [' '], [], [],
    by simp [IsBlank], by simp [IsBlank], by simp, by simp [IsBlank], by simp [IsBlank], by simp [IsBlank], by simp,
    by simp [printInstr]⟩

/-- Settles O57: the printed form is a line of the grammar whose source token is classified as the source. -/
theorem printedInstructionsDecodeBack : Obligations.PrintedInstructionsDecodeBack := by
  unfold Obligations.PrintedInstructionsDecodeBack
  intro i
  rw [linesOfTheGrammarDecode _ _ _ _ _ (printInstr_hasShape i) (classifySrc_printSrc i.src), mkInstr_fields]

/-! ### Source tokens -/

/-- A character's place in a range is its code point's. -/
theorem char_le_iff (a b : Char) : a ≤ b ↔ a.toNat ≤ b.toNat := Iff.rfl

theorem isNameStart_iff (c : Char) :
    isNameStart c = true ↔ ('A' ≤ c ∧ c ≤ 'Z') ∨ ('a' ≤ c ∧ c ≤ 'z') ∨ c = '_' := by
  simp only [isNameStart, Bool.or_eq_true, Bool.and_eq_true, decide_eq_true_eq, beq_iff_eq, or_assoc]
  exact Iff.rfl

theorem isDecimalDigit_iff (c : Char) : isDecimalDigit c = true ↔ '0' ≤ c ∧ c ≤ '9' := by
  simp only [isDecimalDigit, Bool.and_eq_true, decide_eq_true_eq]
  exact Iff.rfl

theorem isNumberStart_iff (c : Char) : isNumberStart c = true ↔ isDecimalDigit c = true ∨ c = '+' ∨ c = '-' := by
  simp only [isNumberStart, Bool.or_eq_true, beq_iff_eq, or_assoc]

/-- No character starts both a name and a number. -/
theorem isNameStart_of_isNumberStart {c : Char} (h : isNumberStart c = true) : isNameStart c = false := by
  rw [← Bool.not_eq_true, isNameStart_iff]
  rw [isNumberStart_iff, isDecimalDigit_iff] at h
  rcases h with ⟨h₁, h₂⟩ | rfl | rfl
  · simp only [char_le_iff] at h₁ h₂ ⊢
    rintro (⟨h, -⟩ | ⟨h, -⟩ | rfl)
    · exact absurd (h.trans h₂) (by decide)
    · exact absurd (h.trans h₂) (by decide)
    · exact absurd h₂ (by decide)
  · decide
  · decide

/-- A token that begins as a name is the register it names (R52). -/
theorem classifySrc_name {c : Char} {rest : Line} {n : RegName} (h : isNameStart c = true)
    (hn : regOfText (c :: rest) = some n) : classifySrc (c :: rest) = .ok (.reg n) := by
  rw [classifySrc, if_pos h, hn]

/-- A token that begins as a name and names no register is an `UnknownRegister` (R52). -/
theorem classifySrc_unknown_name {c : Char} {rest : Line} (h : isNameStart c = true)
    (hn : regOfText (c :: rest) = none) : classifySrc (c :: rest) = .error .unknownRegister := by
  rw [classifySrc, if_pos h, hn]

/-- A token that begins as a number is a literal when it is decimal and in range (R50, R52). -/
theorem classifySrc_number {c : Char} {rest : Line} (h : isNumberStart c = true) :
    classifySrc (c :: rest) =
      if (∀ d ∈ c :: rest, isDecimalDigit d = true) ∧ literalValue (c :: rest) ≤ 255 then
        .ok (.lit (BitVec.ofNat 8 (literalValue (c :: rest))))
      else .error .invalidLiteral := by
  rw [classifySrc, if_neg (by simp [isNameStart_of_isNumberStart h]), if_pos h]
  simp only [Bool.and_eq_true, List.all_eq_true, decide_eq_true_eq]

/-- A token that begins as neither is a `MalformedLine` (R52). -/
theorem classifySrc_other {c : Char} {rest : Line} (hname : ¬ isNameStart c = true) (hnumber : ¬ isNumberStart c = true) :
    classifySrc (c :: rest) = .error .malformedLine := by
  rw [classifySrc, if_neg hname, if_neg hnumber]

/-- Settles O56: a name start reads a register name, and what starts neither a name nor a number is refused. -/
theorem firstCharacterClassifiesTheSource : Obligations.FirstCharacterClassifiesTheSource := by
  unfold Obligations.FirstCharacterClassifiesTheSource
  refine fun c rest => ⟨fun h => ?_, fun ⟨hupper, hlower, hunder, hdigit, hplus, hminus⟩ => ?_⟩
  · have hname := (isNameStart_iff c).mpr h
    exact ⟨fun n hn => classifySrc_name hname ((regOfText_eq_some _ n).mpr hn.symm),
      fun hn => classifySrc_unknown_name hname (regOfText_eq_none.mpr hn)⟩
  · have hname : ¬ isNameStart c = true := by
      rw [isNameStart_iff]
      exact not_or.mpr ⟨hupper, not_or.mpr ⟨hlower, hunder⟩⟩
    have hnumber : ¬ isNumberStart c = true := by
      rw [isNumberStart_iff, isDecimalDigit_iff]
      exact not_or.mpr ⟨hdigit, not_or.mpr ⟨hplus, hminus⟩⟩
    exact classifySrc_other hname hnumber

/-- The decoder's number of a token is the one its characters spell in base 10, most significant first. -/
theorem literalValue_eq_ofDigits (tok : Line) :
    literalValue tok = Nat.ofDigits 10 (tok.reverse.map (fun d => d.toNat - '0'.toNat)) := by
  induction tok using List.reverseRecOn with
  | nil => rfl
  | append_singleton init c ih =>
    rw [literalValue, List.foldl_append, ← literalValue, ih, List.reverse_append, List.map_append, Nat.ofDigits_append]
    simp [Nat.add_comm]

/-- Settles O58: the decoder's digits are `'0'` to `'9'`, and its number is the one they spell in base 10. -/
theorem literalTokensAreDecimalUpTo255 : Obligations.LiteralTokensAreDecimalUpTo255 := by
  unfold Obligations.LiteralTokensAreDecimalUpTo255
  intro c rest h
  rw [classifySrc_number ((isNumberStart_iff c).mpr h), literalValue_eq_ofDigits]
  simp only [isDecimalDigit_iff]

/-- Settles O59: nine closed lines, decoded. -/
theorem rejectedLinesReportTheirError : Obligations.RejectedLinesReportTheirError := by
  unfold Obligations.RejectedLinesReportTheirError
  decide

end Sys2Proof
end

section
/-! PROOFS. The register file and power-on reset (10_state.md sections 3, 7 and 8): the ports' laws, and the write-back of
42_wide_operands.md section 3 that is made of them. -/

namespace Sys2Proof.Machine

/-- Settles O1: every register reads 0 in `Regs.zero`, and the other fields are those of the reset state. -/
theorem resetLeavesPowerOnState : Obligations.ResetLeavesPowerOnState := by
  unfold Obligations.ResetLeavesPowerOnState
  exact fun p => ⟨readByte_zero, readWide_zero, rfl, rfl, if_pos (.inl rfl), rfl, rfl⟩

/-- Settles O2: the empty Program is within every bound. -/
theorem resetMeetsTheInvariant : Obligations.ResetMeetsTheInvariant := by
  unfold Obligations.ResetMeetsTheInvariant
  exact fun p => { pc_le_len := Nat.le_refl _, zero_at_start := fun _ => rfl, within_capacity := fun _ _ => Nat.zero_le _ }

/-- Settles O7: `reset_all` leaves `Regs.zero`, in which every register reads 0. -/
theorem resetAllZeroesTheRegisters : Obligations.ResetAllZeroesTheRegisters := by
  unfold Obligations.ResetAllZeroesTheRegisters
  exact fun s => ⟨readByte_zero, readWide_zero, State.resetAll_prog s, State.resetAll_pc s⟩

/-- Settles O5: the port's law for the register itself, for the others, and for the other views. -/
theorem byteWriteReadsBack : Obligations.ByteWriteReadsBack := by
  unfold Obligations.ByteWriteReadsBack
  exact fun r v x => ⟨readByte_writeByte_same r v x, fun _ h => readByte_writeByte_other h v x,
    fun _ h => readWide_writeByte_other h v x⟩

/-- Settles O6: each consequence is the aliasing law `high*256 + low` after the port's law for the byte written. -/
theorem wideViewsAliasTheirBytes : Obligations.WideViewsAliasTheirBytes := by
  unfold Obligations.WideViewsAliasTheirBytes
  intro w v x
  have hi_kept : readByte (hiByte w) (writeByte (loByte w) v x) = readByte (hiByte w) x :=
    readByte_writeByte_other (hiByte_ne_loByte w w) v x
  have lo_kept : readByte (loByte w) (writeByte (hiByte w) v x) = readByte (loByte w) x :=
    readByte_writeByte_other (hiByte_ne_loByte w w).symm v x
  have hlaw := readWide_toNat w x
  have hlow := (readByte (loByte w) x).isLt
  refine ⟨hlaw, ?_, lo_kept, ?_, hi_kept, fun r h => readWide_writeByte_other h.symm v x, by omega, by omega⟩
  · rw [readWide_toNat, readByte_writeByte_same, lo_kept]
  · rw [readWide_toNat, readByte_writeByte_same, hi_kept]

/-- What a wide destination reads after the write-back of a value in its range (R85). -/
theorem readWide_writeWide_toNat {w : WideReg} {n : Nat} (h : n ≤ 65535) (x : Regs) :
    (readWide w (writeWide w n x)).toNat = n := by
  rw [readWide_toNat, readByte_hi_writeWide, readByte_lo_writeWide, BitVec.toNat_ofNat, BitVec.toNat_ofNat]
  omega

/-- Settles O24: the write-back is two byte writes, or one, so the ports' laws give what each register reads after it. -/
theorem wideWriteBackSplitsIntoBytes : Obligations.WideWriteBackSplitsIntoBytes := by
  unfold Obligations.WideWriteBackSplitsIntoBytes
  refine ⟨fun v r w x => ⟨rfl, rfl, readWide_toNat w x, rfl, readWide_toNat w x, rfl, rfl⟩, fun w n x h => ?_,
    fun d n x h => ?_⟩
  · refine ⟨readWide_writeWide_toNat h x, ?_, ?_, fun r hr => readByte_writeWide_other hr n x⟩
    · rw [writeDest, readByte_hi_writeWide, BitVec.toNat_ofNat]; omega
    · rw [writeDest, readByte_lo_writeWide, BitVec.toNat_ofNat]; omega
  · refine ⟨?_, fun r hr => readByte_writeByte_other hr _ x⟩
    rw [readReg, writeDest, readByte_writeByte_same, BitVec.toNat_ofNat]; omega

/-- The current value of a destination never exceeds its maximum. -/
theorem readReg_le_maxOf (n : RegName) (x : Regs) : readReg n x ≤ maxOf n := by
  cases n with
  | byte r => exact Nat.le_of_lt_succ (readByte r x).isLt
  | wide w => exact Nat.le_of_lt_succ (readWide w x).isLt

end Sys2Proof.Machine
end

section
/-! PROOFS. The six instructions in every state (40_mov.md R68, 41_add_sub.md R77, 42_wide_operands.md R79 to R85): what
one leaves unchanged, when it stops, the values under `wide16`, and the laws of saturating arithmetic. -/

namespace Sys2Proof.Machine

/-- Settles O14: an instruction with a byte destination that completes is one byte write. -/
theorem byteDestinationFrame : Obligations.ByteDestinationFrame := by
  unfold Obligations.ByteDestinationFrame
  intro i d s t hd h
  obtain ⟨d', v, hd', rfl⟩ | ⟨w, n, hw, -, rfl⟩ := exec_next h
  · obtain rfl : d' = d := RegName.byte.inj (hd'.symm.trans hd)
    exact ⟨fun r hr => readByte_writeByte_other hr v s.regs, fun w hw => readWide_writeByte_other hw v s.regs,
      rfl, rfl, rfl, rfl, rfl⟩
  · rw [hd] at hw; cases hw

/-- Settles O15: an instruction with a wide destination that completes is one wide write-back. -/
theorem wideDestinationFrame : Obligations.WideDestinationFrame := by
  unfold Obligations.WideDestinationFrame
  intro i d s t hd h
  obtain ⟨d', v, hd', rfl⟩ | ⟨w, n, hw, -, rfl⟩ := exec_next h
  · rw [hd] at hd'; cases hd'
  · obtain rfl : w = d := RegName.wide.inj (hw.symm.trans hd)
    exact ⟨fun r hr => readByte_writeWide_other hr n s.regs, fun w' hw' => readWide_writeWide_other hw' n s.regs,
      rfl, rfl, rfl, rfl, rfl⟩

/-! ### When an instruction stops -/

/-- Settles O20: by whether the instruction names a wide register, and if so by the policy. -/
theorem onlyWideOperandsCanStop : Obligations.OnlyWideOperandsCanStop := by
  unfold Obligations.OnlyWideOperandsCanStop
  intro i s
  cases hw : i.namesWide with
  | false =>
    obtain ⟨d, v, -, he⟩ := exec_byteOnly hw s
    exact ⟨fun _ => .inl rfl, fun _ => ⟨_, he⟩⟩
  | true =>
    cases hp : s.params.wideOperandPolicy with
    | fault => rw [exec_fault hw hp]; simp
    | wide16 => exact ⟨fun _ => .inr rfl, fun _ => ⟨_, exec_wide16 hw hp⟩⟩

/-! ### Values under `wide16` -/

/-- Settles O21: the ALU's `mov` clamps the operand at the destination's maximum. -/
theorem wideMovClampsToTheDestination : Obligations.WideMovClampsToTheDestination := by
  unfold Obligations.WideMovClampsToTheDestination
  intro i s hop hw hp
  rw [exec_wide16 hw hp, hop, aluWide_mov]

/-- Settles O22: the ALU's `add` clamps the sum at the destination's maximum. -/
theorem wideAddSaturatesAtTheDestination : Obligations.WideAddSaturatesAtTheDestination := by
  unfold Obligations.WideAddSaturatesAtTheDestination
  intro i s hop hw hp
  rw [exec_wide16 hw hp, hop, aluWide_add]

/-- Settles O23: the current value is within the destination's range, so the ALU's `sub` clamps the difference at 0 only. -/
theorem wideSubSaturatesAtZero : Obligations.WideSubSaturatesAtZero := by
  unfold Obligations.WideSubSaturatesAtZero
  intro i s hop hw hp
  have truncated (a b : Nat) : (max ((a : Int) - b) 0).toNat = a - b := by omega
  rw [exec_wide16 hw hp, hop, aluWide_sub (readReg_le_maxOf ..), truncated]

/-! ### Laws of saturating arithmetic (41_add_sub.md section 3) -/

/-- An operation of a byte register and a literal completes and leaves in the register what the ALU answers. -/
theorem exec_byte_lit {i : Instr} {d : ByteReg} {v : Byte} (hd : i.dest = .byte d) (hs : i.src = .lit v) (s : State) :
    ∃ t, exec i s = .next t ∧ readByte d t.regs = aluByte i.op (readByte d s.regs) v := by
  rw [exec_eq_execute, hd, hs, execute_byte_lit]
  exact ⟨_, rfl, readByte_writeByte_same ..⟩

/-- An operation of two byte registers completes and leaves in the first what the ALU answers. -/
theorem exec_byte_reg {i : Instr} {d r : ByteReg} (hd : i.dest = .byte d) (hs : i.src = .reg (.byte r)) (s : State) :
    ∃ t, exec i s = .next t ∧ readByte d t.regs = aluByte i.op (readByte d s.regs) (readByte r s.regs) := by
  rw [exec_eq_execute, hd, hs, execute_byte_reg]
  exact ⟨_, rfl, readByte_writeByte_same ..⟩

/-- `ADD d, b` completes with the saturated sum. -/
theorem exec_addRI_byte (d : ByteReg) (b : Byte) (s : State) :
    ∃ t, exec (.addRI (.byte d) b) s = .next t ∧
      (readByte d t.regs).toNat = min ((readByte d s.regs).toNat + b.toNat) 255 := by
  obtain ⟨t, ht, hr⟩ := exec_byte_lit (i := .addRI (.byte d) b) rfl rfl s
  exact ⟨t, ht, by rw [hr]; exact aluByte_add_toNat ..⟩

/-- `SUB d, b` completes with the truncated difference. -/
theorem exec_subRI_byte (d : ByteReg) (b : Byte) (s : State) :
    ∃ t, exec (.subRI (.byte d) b) s = .next t ∧ (readByte d t.regs).toNat = (readByte d s.regs).toNat - b.toNat := by
  obtain ⟨t, ht, hr⟩ := exec_byte_lit (i := .subRI (.byte d) b) rfl rfl s
  exact ⟨t, ht, by rw [hr]; exact aluByte_sub_toNat ..⟩

/-- Settles O16: two saturated sums are the saturated sum of all, and two truncated differences that of all. -/
theorem repeatedAddsAndSubsCompose : Obligations.RepeatedAddsAndSubsCompose := by
  unfold Obligations.RepeatedAddsAndSubsCompose
  intro d b₁ b₂ s
  constructor
  · obtain ⟨t, ht, h₁⟩ := exec_addRI_byte d b₁ s
    obtain ⟨u, hu, h₂⟩ := exec_addRI_byte d b₂ t
    exact ⟨t, u, ht, hu, by omega⟩
  · obtain ⟨t, ht, h₁⟩ := exec_subRI_byte d b₁ s
    obtain ⟨u, hu, h₂⟩ := exec_subRI_byte d b₂ t
    exact ⟨t, u, ht, hu, by omega⟩

/-- Settles O17: the difference after the saturated sum, by whether the sum saturated. -/
theorem addThenSubRestoresUnlessSaturated : Obligations.AddThenSubRestoresUnlessSaturated := by
  unfold Obligations.AddThenSubRestoresUnlessSaturated
  intro d b s
  obtain ⟨t, ht, h₁⟩ := exec_addRI_byte d b s
  obtain ⟨u, hu, h₂⟩ := exec_subRI_byte d b t
  refine ⟨t, u, ht, hu, ?_⟩
  split <;> omega

/-- Settles O18: both operands of the ALU are the register's old value. -/
theorem sameRegisterOperandsAreReadFirst : Obligations.SameRegisterOperandsAreReadFirst := by
  unfold Obligations.SameRegisterOperandsAreReadFirst
  intro d s
  constructor
  · obtain ⟨t, ht, hr⟩ := exec_byte_reg (i := .addRR (.byte d) (.byte d)) rfl rfl s
    refine ⟨t, ht, ?_⟩
    rw [hr, Nat.two_mul]
    exact aluByte_add_toNat ..
  · obtain ⟨t, ht, hr⟩ := exec_byte_reg (i := .subRR (.byte d) (.byte d)) rfl rfl s
    refine ⟨t, ht, BitVec.eq_of_toNat_eq ?_⟩
    rw [hr]
    exact (aluByte_sub_toNat ..).trans (Nat.sub_self _)

end Sys2Proof.Machine
end

section
/-! PROOFS. The commands one by one (45_engine_commands.md R86 to R97): an equation for each case of a command, when a
command completes, and what every command keeps. -/

namespace Sys2Proof.Machine

@[simp] theorem perform_append (arg : AppendArg) (s : State) : perform (.append arg) s = .next (appendCommand arg s) := rfl
@[simp] theorem perform_removeLast (s : State) : perform .removeLast s = .next (removeLastCommand s) := rfl
@[simp] theorem perform_step (s : State) : perform .step s = stepCommand s := rfl
@[simp] theorem perform_run (s : State) : perform .run s = runCommand s := rfl
@[simp] theorem perform_snapshot (s : State) : perform .snapshot s = .next (snapshotCommand s) := rfl

/-! ### The execution state (10_state.md R26) -/

theorem execState_eq_idle_iff (s : State) : s.execState = .idle ↔ s.prog.length = 0 ∨ s.pc = 0 := by
  rw [State.execState]
  split
  · next h => exact iff_of_true rfl h
  · next h => refine iff_of_false ?_ h; split <;> decide

theorem execState_eq_running_iff (s : State) : s.execState = .running ↔ 0 < s.pc ∧ s.pc < s.prog.length := by
  rw [State.execState]
  split
  · refine iff_of_false (by decide) ?_; omega
  · split
    · refine iff_of_true rfl ?_; omega
    · refine iff_of_false (by decide) ?_; omega

theorem execState_eq_completed_iff (s : State) :
    s.execState = .completed ↔ 0 < s.prog.length ∧ s.prog.length ≤ s.pc := by
  rw [State.execState]
  split
  · refine iff_of_false (by decide) ?_; omega
  · split
    · refine iff_of_false (by decide) ?_; omega
    · refine iff_of_true rfl ?_; omega

/-! ### `APPEND` -/

/-- The Program has room exactly when it is shorter than every bound there is (R24). -/
theorem isFull_eq_false_iff (s : State) :
    s.isFull = false ↔ ∀ n, s.params.progMax = some n → s.prog.length < n := by
  rw [State.isFull]
  cases s.params.progMax with
  | none => simp
  | some m => simp

/-- A Program as long as its bound is full. -/
theorem isFull_of_length_eq {s : State} {n : Nat} (hn : s.params.progMax = some n) (hlen : s.prog.length = n) :
    s.isFull = true := by
  rw [State.isFull, hn, hlen]; simp

theorem appendCommand_of_error {arg : AppendArg} {e : DecodeError} (h : decodeArg arg = .error e) (s : State) :
    appendCommand arg s = s.reject (.decode e) := by
  rw [appendCommand, h]

theorem appendCommand_of_full {arg : AppendArg} {i : Instr} {s : State} (h : decodeArg arg = .ok i)
    (hf : s.isFull = true) : appendCommand arg s = s.reject .programFull := by
  rw [appendCommand, h]; exact if_pos hf

theorem appendCommand_of_room {arg : AppendArg} {i : Instr} {s : State} (h : decodeArg arg = .ok i)
    (hf : s.isFull = false) : appendCommand arg s = ((s.setProg (s.prog ++ [i])).restart).respond .appended := by
  rw [appendCommand, h]; exact if_neg (by simp [hf])

/-- `APPEND` is rejected, or stores an instruction last and restarts. -/
theorem appendCommand_cases (arg : AppendArg) (s : State) :
    (∃ e, appendCommand arg s = s.reject e) ∨
    (∃ i, appendCommand arg s = ((s.setProg (s.prog ++ [i])).restart).respond .appended) := by
  cases hd : decodeArg arg with
  | error e => exact .inl ⟨_, appendCommand_of_error hd s⟩
  | ok i =>
    cases hf : s.isFull with
    | true => exact .inl ⟨_, appendCommand_of_full hd hf⟩
    | false => exact .inr ⟨i, appendCommand_of_room hd hf⟩

/-- Settles O29: one equation of `APPEND` per case of its argument and of the room in the Program. -/
theorem appendStoresAndResets : Obligations.AppendStoresAndResets := by
  unfold Obligations.AppendStoresAndResets
  refine fun arg s => ⟨fun l h => h ▸ rfl, fun i h => h ▸ rfl, fun w h => h ▸ rfl, fun e h => ?_,
    fun i n h hn hlen => ?_, fun i h hroom => ?_⟩
  · rw [perform_append, appendCommand_of_error h, State.reject]
  · rw [perform_append, appendCommand_of_full h (isFull_of_length_eq hn hlen), State.reject]
  · rw [perform_append, appendCommand_of_room h ((isFull_eq_false_iff s).mpr hroom)]; rfl

/-! ### `STEP` -/

theorem stepCommand_of_nil {s : State} (h : s.prog = []) : stepCommand s = .next (stepIdle s) := by
  rw [stepCommand, h]

/-- The auto-restart under `reset_only` (R93). -/
theorem stepCommand_resetOnly {s : State} (hne : s.prog ≠ []) (hpc : s.prog.length ≤ s.pc)
    (hm : s.params.restartMode = .resetOnly) : stepCommand s = .next (stepIdle s.restart) := by
  rw [stepCommand]
  cases hp : s.prog with
  | nil => exact absurd hp hne
  | cons first rest => dsimp only; rw [← hp, List.getElem?_eq_none hpc, hm]

/-- The auto-restart under `reset_and_execute` (R93). -/
theorem stepCommand_resetAndExecute {s : State} {i : Instr} (hi : s.prog[0]? = some i) (hpc : s.prog.length ≤ s.pc)
    (hm : s.params.restartMode = .resetAndExecute) : stepCommand s = stepExecuting i s.restart := by
  rw [stepCommand]
  cases hp : s.prog with
  | nil => rw [hp] at hi; cases hi
  | cons first rest =>
    obtain rfl : first = i := by rw [hp] at hi; exact Option.some.inj hi
    dsimp only; rw [← hp, List.getElem?_eq_none hpc, hm]

/-- The auto-restart under `reset_and_execute` is the `STEP` of the restarted engine. -/
theorem stepCommand_eq_of_resetAndExecute {s : State} (hne : s.prog ≠ []) (hpc : s.prog.length ≤ s.pc)
    (hm : s.params.restartMode = .resetAndExecute) : stepCommand s = stepCommand s.restart := by
  have hi := List.getElem?_eq_getElem (List.length_pos_of_ne_nil hne)
  exact (stepCommand_resetAndExecute hi hpc hm).trans (stepCommand_at_cursor (s := s.restart) hi).symm

/-- `STEP` at an instruction that `exec` completes (R94). -/
theorem stepExecuting_of_exec {i : Instr} {s : State} {x : Regs} (h : exec i s = .next (s.setRegs x)) :
    stepExecuting i s = .next (((s.setRegs x).setPc (s.pc + 1)).respond (.stepped (stepResult (some s.pc) x))) := by
  rw [stepExecuting, executeAtCursor, h]; rfl

theorem stepExecuting_of_fault {i : Instr} {s : State} {f : Fault} (h : exec i s = .fault f) :
    stepExecuting i s = .fault f := by
  rw [stepExecuting, executeAtCursor, h]

theorem snapshotOf_dec {x : Regs} {e : SnapshotEntry} (h : e ∈ snapshotOf x) : e.dec = readReg e.name x := by
  obtain ⟨n, -, rfl⟩ := List.mem_map.mp h
  rfl

@[simp] theorem readReg_zero (n : RegName) : readReg n Regs.zero = 0 := by
  cases n with
  | byte r => rw [readReg, readByte_zero]; rfl
  | wide w => rw [readReg, readWide_zero]; rfl

/-- Settles O27: `STEP` on the empty Program executes nothing, and there the cursor is 0, so the registers are zero. -/
theorem stepOnTheEmptyProgramIsANoOp : Obligations.StepOnTheEmptyProgramIsANoOp := by
  unfold Obligations.StepOnTheEmptyProgramIsANoOp
  intro s hp
  refine ⟨stepCommand_of_nil hp, fun hinv e he => ?_⟩
  have hpc : s.pc = 0 := by simpa [hp] using hinv.pc_le_len
  rw [snapshotOf_dec he, hinv.zero_at_start hpc, readReg_zero]

/-- Settles O28: the two branches of the auto-restart. -/
theorem stepWhenCompletedRestarts : Obligations.StepWhenCompletedRestarts := by
  unfold Obligations.StepWhenCompletedRestarts
  intro s hne hpc
  exact ⟨stepCommand_resetOnly hne hpc.ge, stepCommand_eq_of_resetAndExecute hne hpc.ge⟩

/-- `STEP` with an instruction at the cursor moves the cursor by 1 and keeps the Program. -/
theorem stepCommand_next_of_lt {s t : State} (h : stepCommand s = .next t) (hlt : s.pc < s.prog.length) :
    t.prog = s.prog ∧ t.pc = s.pc + 1 := by
  rw [stepCommand_at_cursor (List.getElem?_eq_getElem hlt)] at h
  obtain ⟨x, -, rfl⟩ := stepExecuting_next h
  exact ⟨rfl, rfl⟩

/-- Settles O25: the step is `STEP` at an instruction, and one that completes moves the cursor by 1. -/
theorem stepRunsTheInstructionAtTheCursor : Obligations.StepRunsTheInstructionAtTheCursor := by
  unfold Obligations.StepRunsTheInstructionAtTheCursor
  intro s i hnext hi
  have hstep : step s = stepCommand (s.setCommands s.commands.tail) := by rw [step_eq, hnext, perform_step]
  rw [hstep]
  constructor
  · rw [stepCommand_at_cursor (s := s.setCommands s.commands.tail) hi, stepExecuting, executeAtCursor]
    cases exec i (s.setCommands s.commands.tail) <;> rfl
  · intro t ht hlast
    obtain ⟨hprog, hpc⟩ := stepCommand_next_of_lt ht (List.getElem?_eq_some_iff.mp hi).1
    rw [execState_eq_completed_iff, hprog, hpc]
    simp only [State.setCommands_prog, State.setCommands_pc]
    omega

/-- A word that decodes is placed at the cursor. -/
theorem withFetchWord_of_decodes {w : StorageWord} {i : Instr} (h : decodeWord w = .ok i) (s : State) :
    s.withFetchWord 16 w.toNat = placeAtCursor i s := by
  have hi : decodeTableWord 16 w.toNat = some i := by
    rw [decodeTableWord, if_pos ⟨Nat.le_refl _, w.isLt⟩, BitVec.ofNat_toNat, BitVec.setWidth_eq, h]; rfl
  rw [State.withFetchWord, placeWord, hi]

/-- The placed instruction is the one at the cursor. -/
theorem placeAtCursor_at_cursor (i : Instr) (s : State) :
    (placeAtCursor i s).prog[(placeAtCursor i s).pc]? = some i := by
  have hlen : (s.prog.take s.pc).length = min s.pc s.prog.length := List.length_take
  show (s.prog.take s.pc ++ i :: s.prog.drop (s.pc + 1))[min s.pc s.prog.length]? = some i
  rw [← hlen, List.getElem?_append_right (Nat.le_refl _), Nat.sub_self]; rfl

/-- Settles O26: the placed word's instruction is at the cursor with `STEP` the next command. -/
theorem storedWordRunsAtTheNextStep : Obligations.StoredWordRunsAtTheNextStep := by
  unfold Obligations.StoredWordRunsAtTheNextStep
  intro s w i h
  rw [withFetchWord_of_decodes h,
    (stepRunsTheInstructionAtTheCursor (placeAtCursor i s) i rfl (placeAtCursor_at_cursor i s)).1]
  rfl

/-! ### `RUN` and `SNAPSHOT` -/

/-- The loop of `RUN` over an instruction that completes goes on with the rest. -/
theorem runLoop_cons_of_next {i : Instr} {rest : List Instr} {s t : State} {x : Regs} {rs : List StepResult}
    (hx : exec i s = .next (s.setRegs x)) (hr : runLoop rest ((s.setRegs x).setPc (s.pc + 1)) = .next (t, rs)) :
    runLoop (i :: rest) s = .next (t, stepResult (some s.pc) x :: rs) := by
  rw [runLoop, executeAtCursor, hx]; dsimp only
  rw [hr]; rfl

theorem runLoop_cons_of_fault {i : Instr} {rest : List Instr} {s : State} {x : Regs} {f : Fault}
    (hx : exec i s = .next (s.setRegs x)) (hr : runLoop rest ((s.setRegs x).setPc (s.pc + 1)) = .fault f) :
    runLoop (i :: rest) s = .fault f := by
  rw [runLoop, executeAtCursor, hx]; dsimp only
  rw [hr]

theorem runCommand_of_nil {s : State} (h : s.prog = []) : runCommand s = .next (s.respond (.ran [])) := by
  rw [runCommand, h]

theorem runCommand_of_loop_next {s t : State} {rs : List StepResult} (hne : s.prog ≠ [])
    (h : runLoop s.prog s.restart = .next (t, rs)) : runCommand s = .next (t.respond (.ran rs)) := by
  rw [runCommand]
  cases hp : s.prog with
  | nil => exact absurd hp hne
  | cons first rest => dsimp only; rw [← hp, h]

theorem runCommand_of_loop_fault {s : State} {f : Fault} (hne : s.prog ≠ [])
    (h : runLoop s.prog s.restart = .fault f) : runCommand s = .fault f := by
  rw [runCommand]
  cases hp : s.prog with
  | nil => exact absurd hp hne
  | cons first rest => dsimp only; rw [← hp, h]

/-- A `RUN` of a non-empty Program that completes is a completed loop from the restarted engine. -/
theorem runCommand_next_loop {s t : State} (hne : s.prog ≠ []) (h : runCommand s = .next t) :
    ∃ u rs, runLoop s.prog s.restart = .next (u, rs) ∧ t = u.respond (.ran rs) := by
  rw [runCommand] at h
  cases hp : s.prog with
  | nil => exact absurd hp hne
  | cons first rest =>
    rw [hp] at h; dsimp only at h; rw [← hp] at h ⊢
    cases hr : runLoop s.prog s.restart with
    | fault f => rw [hr] at h; cases h
    | refused r => rw [hr] at h; cases h
    | next v => rw [hr] at h; cases h; exact ⟨v.1, v.2, rfl, rfl⟩

/-- Settles O35: `RUN` sees the restarted engine only. -/
theorem runStartsOverFromAnyState : Obligations.RunStartsOverFromAnyState := by
  unfold Obligations.RunStartsOverFromAnyState
  refine fun s x k => ⟨fun hne => ?_, runCommand_of_nil⟩
  rw [perform_run, perform_run, runCommand, runCommand]
  cases hp : s.prog with
  | nil => exact absurd hp hne
  | cons first rest => simp only [State.setPc_prog, State.setRegs_prog, hp]; rfl

/-- Settles O39: by the definition of the command. -/
theorem snapshotChangesNothing : Obligations.SnapshotChangesNothing := by
  unfold Obligations.SnapshotChangesNothing
  exact perform_snapshot

/-- Settles O60: by the definition of the numbers. -/
theorem causeCodesAreNumbered : Obligations.CauseCodesAreNumbered := by
  unfold Obligations.CauseCodesAreNumbered
  exact ⟨rfl, rfl, rfl, rfl, rfl, fun _ => rfl⟩

/-! ### What every command keeps -/

/-- No command changes the parameters or the commands still to come. -/
theorem perform_next_params_commands {c : Command} {s t : State} (h : perform c s = .next t) :
    t.params = s.params ∧ t.commands = s.commands := by
  obtain ⟨r, rfl⟩ | ⟨arg, i, -, -, -, rfl⟩ | ⟨-, -, rfl⟩ | ⟨-, -, x, r, rfl⟩ | ⟨-, -, -, r, rfl⟩ |
    ⟨-, -, -, x, r, rfl⟩ | ⟨-, -, x, r, rfl⟩ := perform_next h <;> exact ⟨rfl, rfl⟩

/-- Settles O4: no command changes the parameters. -/
theorem stepsNeverChangeTheParameters : Obligations.StepsNeverChangeTheParameters := by
  unfold Obligations.StepsNeverChangeTheParameters
  intro s t h
  rw [step_eq] at h
  exact (perform_next_params_commands h).1

/-- The invariant says nothing of the command interface. -/
theorem State.Inv.setCommands {s : State} (h : s.Inv) (cs : List Command) : (s.setCommands cs).Inv :=
  { pc_le_len := h.pc_le_len, zero_at_start := h.zero_at_start, within_capacity := h.within_capacity }

theorem State.Inv.respond {s : State} (h : s.Inv) (r : Response) : (s.respond r).Inv :=
  { pc_le_len := h.pc_le_len, zero_at_start := h.zero_at_start, within_capacity := h.within_capacity }

/-- A restarted engine meets the invariant when its Program is within the bound. -/
theorem inv_restart {s : State} (h : ∀ n, s.params.progMax = some n → s.prog.length ≤ n) : s.restart.Inv :=
  { pc_le_len := Nat.zero_le _, zero_at_start := fun _ => rfl, within_capacity := h }

/-- Any registers meet the invariant at a cursor in `[1, len]`. -/
theorem State.Inv.setRegs_setPc {s : State} (h : s.Inv) (x : Regs) {k : Nat} (hpos : 0 < k) (hle : k ≤ s.prog.length) :
    ((s.setRegs x).setPc k).Inv :=
  { pc_le_len := hle, zero_at_start := fun hk => absurd hk hpos.ne', within_capacity := h.within_capacity }

/-- Every command keeps the invariant: by what a command can do to the state. -/
theorem State.Inv.perform {c : Command} {s t : State} (hinv : s.Inv) (h : perform c s = .next t) : t.Inv := by
  obtain ⟨r, rfl⟩ | ⟨arg, i, -, -, hroom, rfl⟩ | ⟨-, hp, rfl⟩ | ⟨-, hlt, x, r, rfl⟩ | ⟨-, -, -, r, rfl⟩ |
    ⟨-, hp, -, x, r, rfl⟩ | ⟨-, hp, x, r, rfl⟩ := perform_next h
  · exact hinv.respond r
  · refine State.Inv.respond (inv_restart fun n hn => ?_) _
    have := (isFull_eq_false_iff s).mp hroom n hn
    simpa using this
  · refine State.Inv.respond (inv_restart fun n hn => ?_) _
    have := hinv.within_capacity n hn
    simp only [State.setProg_prog, List.length_dropLast]
    omega
  · exact (hinv.setRegs_setPc x (Nat.succ_pos _) hlt).respond r
  · exact (inv_restart hinv.within_capacity).respond r
  · exact (hinv.setRegs_setPc x Nat.one_pos (List.length_pos_of_ne_nil hp)).respond r
  · exact (hinv.setRegs_setPc x (List.length_pos_of_ne_nil hp) (Nat.le_refl _)).respond r

/-- Settles O3: a step is a command, and every command keeps the invariant. -/
theorem everyStepKeepsTheInvariant : Obligations.EveryStepKeepsTheInvariant := by
  unfold Obligations.EveryStepKeepsTheInvariant
  intro s t hinv h
  rw [step_eq] at h
  exact (hinv.setCommands _).perform h

/-! ### When commands complete -/

/-- The instruction cannot stop here: it names no wide register, or wide operands have a meaning (R80). -/
def State.Admits (s : State) (i : Instr) : Prop := i.namesWide = false ∨ s.params.wideOperandPolicy = .wide16

theorem exec_of_admits {i : Instr} {s : State} (h : s.Admits i) : ∃ x, exec i s = .next (s.setRegs x) := by
  obtain ⟨t, ht⟩ := (onlyWideOperandsCanStop i s).mpr h
  obtain ⟨x, rfl⟩ := exec_eq_setRegs ht
  exact ⟨x, ht⟩

theorem stepExecuting_completes {i : Instr} {s : State} (h : s.Admits i) : ∃ t, stepExecuting i s = .next t := by
  obtain ⟨x, hx⟩ := exec_of_admits h
  exact ⟨_, stepExecuting_of_exec hx⟩

theorem runLoop_completes {l : List Instr} {s : State} (h : ∀ i ∈ l, s.Admits i) : ∃ t rs, runLoop l s = .next (t, rs) := by
  induction l generalizing s with
  | nil => exact ⟨s, [], rfl⟩
  | cons i rest ih =>
    rw [List.forall_mem_cons] at h
    obtain ⟨x, hx⟩ := exec_of_admits h.1
    obtain ⟨t, rs, hr⟩ := ih (s := (s.setRegs x).setPc (s.pc + 1)) h.2
    exact ⟨t, _, runLoop_cons_of_next hx hr⟩

theorem stepCommand_completes {s : State} (h : ∀ i ∈ s.prog, s.Admits i) : ∃ t, stepCommand s = .next t := by
  by_cases hp : s.prog = []
  · exact ⟨_, stepCommand_of_nil hp⟩
  have hpos := List.length_pos_of_ne_nil hp
  by_cases hlt : s.pc < s.prog.length
  · rw [stepCommand_at_cursor (List.getElem?_eq_getElem hlt)]
    exact stepExecuting_completes (h _ (List.getElem_mem hlt))
  cases hm : s.params.restartMode with
  | resetOnly => exact ⟨_, stepCommand_resetOnly hp (by omega) hm⟩
  | resetAndExecute =>
    rw [stepCommand_resetAndExecute (List.getElem?_eq_getElem hpos) (by omega) hm]
    exact stepExecuting_completes (s := s.restart) (h _ (List.getElem_mem hpos))

theorem runCommand_completes {s : State} (h : ∀ i ∈ s.prog, s.Admits i) : ∃ t, runCommand s = .next t := by
  by_cases hp : s.prog = []
  · exact ⟨_, runCommand_of_nil hp⟩
  · obtain ⟨t, rs, hr⟩ := runLoop_completes (s := s.restart) h
    exact ⟨_, runCommand_of_loop_next hp hr⟩

/-- Where no instruction of the Program can stop, every command completes. -/
theorem perform_completes {s : State} (h : ∀ i ∈ s.prog, s.Admits i) (c : Command) : ∃ t, perform c s = .next t := by
  cases c with
  | append arg => exact ⟨_, rfl⟩
  | removeLast => exact ⟨_, rfl⟩
  | step => exact stepCommand_completes h
  | run => exact runCommand_completes h
  | snapshot => exact ⟨_, rfl⟩

/-! ### Engines that cannot stop -/

theorem byteOnly_iff (s : State) :
    s.byteOnly = true ↔ (∀ i ∈ s.prog, i.namesWide = false) ∧ ∀ c ∈ s.commands, c.byteOnly = true := by
  simp only [State.byteOnly, Bool.and_eq_true, List.all_eq_true, Bool.not_eq_true']

theorem State.CannotStop.admits {s : State} (h : s.CannotStop) : ∀ i ∈ s.prog, s.Admits i := by
  intro i hi
  rcases h with h | h
  · exact .inr h
  · exact .inl (((byteOnly_iff s).mp h).1 i hi)

/-- A command brings no instruction into the Program but the one it appends. -/
theorem perform_next_prog_mem {c : Command} {s t : State} (h : perform c s = .next t) {j : Instr} (hj : j ∈ t.prog) :
    j ∈ s.prog ∨ ∃ arg, c = .append arg ∧ decodeArg arg = .ok j := by
  obtain ⟨r, rfl⟩ | ⟨arg, i, hc, hd, -, rfl⟩ | ⟨-, -, rfl⟩ | ⟨-, -, x, r, rfl⟩ | ⟨-, -, -, r, rfl⟩ |
    ⟨-, -, -, x, r, rfl⟩ | ⟨-, -, x, r, rfl⟩ := perform_next h
  case inr.inl =>
    rcases List.mem_append.mp hj with hj | hj
    · exact .inl hj
    · rw [List.mem_singleton.mp hj]; exact .inr ⟨arg, hc, hd⟩
  case inr.inr.inl => exact .inl (List.mem_of_mem_dropLast hj)
  all_goals exact .inl hj

/-- The instruction that a byte-only `APPEND` stores names no wide register. -/
theorem namesWide_of_byteOnly {arg : AppendArg} {i : Instr} (h : arg.byteOnly = true) (hd : decodeArg arg = .ok i) :
    i.namesWide = false := by
  rw [AppendArg.byteOnly, hd] at h
  simpa using h

/-- The host's next command is one still to come, or `STEP`. -/
theorem nextCommand_byteOnly {s : State} (h : ∀ c ∈ s.commands, c.byteOnly = true) : (nextCommand s).byteOnly = true := by
  rw [nextCommand]
  cases hc : s.commands with
  | nil => rfl
  | cons c cs => exact h c (by rw [hc]; exact List.mem_cons_self ..)

/-- A step brings in no wide operand where there is none. -/
theorem step_next_byteOnly {s t : State} (hb : s.byteOnly = true) (h : step s = .next t) : t.byteOnly = true := by
  rw [step_eq] at h
  obtain ⟨hprog, hcmds⟩ := (byteOnly_iff s).mp hb
  refine (byteOnly_iff t).mpr ⟨fun j hj => ?_, fun c hc => ?_⟩
  · rcases perform_next_prog_mem h hj with hj | ⟨arg, harg, hd⟩
    · exact hprog j hj
    · have := nextCommand_byteOnly hcmds
      rw [harg] at this
      exact namesWide_of_byteOnly this hd
  · rw [(perform_next_params_commands h).2] at hc
    exact hcmds c (List.mem_of_mem_tail hc)

/-- A step keeps that nothing can stop. -/
theorem step_next_cannotStop {s t : State} (hs : s.CannotStop) (h : step s = .next t) : t.CannotStop := by
  rcases hs with hp | hb
  · exact .inl (by rw [stepsNeverChangeTheParameters s t h, hp])
  · exact .inr (step_next_byteOnly hb h)

/-- Settles O41: no instruction of the Program can stop, so the step completes, and a step keeps that nothing can. -/
theorem stepsThatCannotStopStaySo : Obligations.StepsThatCannotStopStaySo := by
  unfold Obligations.StepsThatCannotStopStaySo
  intro s hs
  obtain ⟨t, ht⟩ := perform_completes (s := s.setCommands s.commands.tail) hs.admits (nextCommand s)
  exact ⟨t, ht, step_next_cannotStop hs ht⟩

/-- Settles O42: every step completes and keeps that nothing can stop, and so does a run of any length. -/
theorem withoutWideFaultsEveryRunCompletes : Obligations.WithoutWideFaultsEveryRunCompletes := by
  unfold Obligations.WithoutWideFaultsEveryRunCompletes
  intro s k hs
  obtain ⟨t, ht, -⟩ := run_of_kept stepsThatCannotStopStaySo k s hs
  exact ⟨t, ht⟩

/-- Settles O19: the fault of `exec` is the step's, and `APPEND` executes nothing. -/
theorem wideOperandFaultsUnderFaultPolicy : Obligations.WideOperandFaultsUnderFaultPolicy := by
  unfold Obligations.WideOperandFaultsUnderFaultPolicy
  intro i s hw hp
  refine ⟨exec_fault hw hp, fun hnext hi => ?_, fun hroom => ?_⟩
  · rw [step_eq, hnext, perform_step, stepCommand_at_cursor (s := s.setCommands s.commands.tail) hi]
    exact stepExecuting_of_fault (exec_fault hw hp)
  · rw [perform_append, appendCommand_of_room (i := i) rfl hroom]
    exact ⟨_, rfl, rfl, rfl⟩

end Sys2Proof.Machine
end

section
/-! PROOFS. The execution state after each command (45_engine_commands.md section 5), and that no command reads the result
of an earlier one (60_exceptions.md R108). -/

namespace Sys2Proof.Machine

/-! ### The result of the last command is not read -/

theorem appendCommand_respond (arg : AppendArg) (s : State) (r : Response) :
    appendCommand arg (s.respond r) = appendCommand arg s := by
  cases hd : decodeArg arg with
  | error e => rw [appendCommand_of_error hd, appendCommand_of_error hd]; rfl
  | ok i =>
    cases hf : s.isFull with
    | true => rw [appendCommand_of_full hd hf, appendCommand_of_full (s := s.respond r) hd hf]; rfl
    | false => rw [appendCommand_of_room hd hf, appendCommand_of_room (s := s.respond r) hd hf]; rfl

theorem removeLastCommand_respond (s : State) (r : Response) :
    removeLastCommand (s.respond r) = removeLastCommand s := by
  rw [removeLastCommand, removeLastCommand, State.respond_prog]
  cases s.prog <;> rfl

/-- What an instruction does at the cursor in two states with the same registers, cursor and parameters. -/
theorem executeAtCursor_of_same {s s' : State} (hr : s'.regs = s.regs) (hpc : s'.pc = s.pc) (hp : s'.params = s.params)
    (i : Instr) :
    (∃ x, executeAtCursor i s = .next ((s.setRegs x).setPc (s.pc + 1)) ∧
      executeAtCursor i s' = .next ((s'.setRegs x).setPc (s.pc + 1))) ∨
    ∃ f, executeAtCursor i s = .fault f ∧ executeAtCursor i s' = .fault f := by
  obtain ⟨x, he⟩ | ⟨hw, hf, he⟩ := exec_cases i s
  · have he' := exec_of_same_regs hr hp he
    exact .inl ⟨x, by rw [executeAtCursor, he], by rw [executeAtCursor, he', hpc]⟩
  · have he' := exec_fault (s := s') hw (hp ▸ hf)
    rw [hpc] at he'
    exact .inr ⟨_, by rw [executeAtCursor, he], by rw [executeAtCursor, he']⟩

theorem stepExecuting_respond (i : Instr) (s : State) (r : Response) :
    stepExecuting i (s.respond r) = stepExecuting i s := by
  rw [stepExecuting, stepExecuting]
  obtain ⟨x, he, he'⟩ | ⟨f, he, he'⟩ := executeAtCursor_of_same (s := s) (s' := s.respond r) rfl rfl rfl i
  · rw [he, he']; rfl
  · rw [he, he']

/-- What the loop of `RUN` does in two states with the same registers, cursor and parameters. -/
theorem runLoop_of_same (l : List Instr) {s s' : State} (hr : s'.regs = s.regs) (hpc : s'.pc = s.pc)
    (hp : s'.params = s.params) :
    (∃ x k rs, runLoop l s = .next ((s.setRegs x).setPc k, rs) ∧ runLoop l s' = .next ((s'.setRegs x).setPc k, rs)) ∨
    ∃ f, runLoop l s = .fault f ∧ runLoop l s' = .fault f := by
  induction l generalizing s s' with
  | nil => exact .inl ⟨s.regs, s.pc, [], rfl, by rw [← hr, ← hpc]; rfl⟩
  | cons i rest ih =>
    rw [runLoop, runLoop]
    obtain ⟨x, he, he'⟩ | ⟨f, he, he'⟩ := executeAtCursor_of_same hr hpc hp i
    · rw [he, he']; dsimp only
      obtain ⟨y, k, rs, hl, hl'⟩ | ⟨f, hl, hl'⟩ := ih (s := (s.setRegs x).setPc (s.pc + 1))
        (s' := (s'.setRegs x).setPc (s.pc + 1)) rfl rfl hp
      · rw [hl, hl']; dsimp only; rw [hpc]
        exact .inl ⟨y, k, _, rfl, rfl⟩
      · rw [hl, hl']
        exact .inr ⟨f, rfl, rfl⟩
    · rw [he, he']
      exact .inr ⟨f, rfl, rfl⟩

theorem stepCommand_respond (s : State) (r : Response) : stepCommand (s.respond r) = stepCommand s := by
  by_cases hp : s.prog = []
  · rw [stepCommand_of_nil hp, stepCommand_of_nil (s := s.respond r) hp]; rfl
  by_cases hlt : s.pc < s.prog.length
  · have hi := List.getElem?_eq_getElem hlt
    rw [stepCommand_at_cursor hi, stepCommand_at_cursor (s := s.respond r) hi, stepExecuting_respond]
  have hle := Nat.le_of_not_lt hlt
  cases hm : s.params.restartMode with
  | resetOnly => rw [stepCommand_resetOnly hp hle hm, stepCommand_resetOnly (s := s.respond r) hp hle hm]; rfl
  | resetAndExecute =>
    have hi := List.getElem?_eq_getElem (List.length_pos_of_ne_nil hp)
    rw [stepCommand_resetAndExecute hi hle hm, stepCommand_resetAndExecute (s := s.respond r) hi hle hm]
    exact stepExecuting_respond _ s.restart r

theorem runCommand_respond (s : State) (r : Response) : runCommand (s.respond r) = runCommand s := by
  by_cases hp : s.prog = []
  · rw [runCommand_of_nil hp, runCommand_of_nil (s := s.respond r) hp]; rfl
  obtain ⟨x, k, rs, hl, hl'⟩ | ⟨f, hl, hl'⟩ :=
    runLoop_of_same s.prog (s := s.restart) (s' := (s.respond r).restart) rfl rfl rfl
  · rw [runCommand_of_loop_next hp hl, runCommand_of_loop_next (s := s.respond r) hp hl']; rfl
  · rw [runCommand_of_loop_fault hp hl, runCommand_of_loop_fault (s := s.respond r) hp hl']

/-- No command reads the result of an earlier one. -/
theorem perform_respond (c : Command) (s : State) (r : Response) : perform c (s.respond r) = perform c s := by
  cases c with
  | append arg => rw [perform_append, perform_append, appendCommand_respond]
  | removeLast => rw [perform_removeLast, perform_removeLast, removeLastCommand_respond]
  | step => exact stepCommand_respond s r
  | run => exact runCommand_respond s r
  | snapshot => rfl

/-- Settles O31: a failed `APPEND` leaves its result only, which the next command does not read. -/
theorem failedAppendIsForgotten : Obligations.FailedAppendIsForgotten := by
  unfold Obligations.FailedAppendIsForgotten
  intro s t e h hr
  rw [step_eq] at h
  obtain ⟨-, rfl⟩ := perform_next_of_appendFailed h hr
  exact perform_respond _ ((s.setCommands s.commands.tail).setCommands s.commands.tail.tail) _

/-! ### The transition table -/

/-- In a state that meets the invariant, a cursor of 0 is the restarted engine's. -/
theorem State.Inv.idle_of_pc {s : State} (hinv : s.Inv) (h : s.pc = 0) :
    s.execState = .idle ∧ s.pc = 0 ∧ s.regs = Regs.zero :=
  ⟨(execState_eq_idle_iff s).mpr (.inr h), h, hinv.zero_at_start h⟩

theorem State.Inv.pc_of_nil {s : State} (hinv : s.Inv) (h : s.prog = []) : s.pc = 0 := by
  simpa [h] using hinv.pc_le_len

/-- The rows of `APPEND`. -/
theorem appendCommand_execState (arg : AppendArg) (s : State) :
    ((appendCommand arg s).response = some .appended →
      (appendCommand arg s).execState = .idle ∧ (appendCommand arg s).pc = 0 ∧ (appendCommand arg s).regs = Regs.zero) ∧
    ((appendCommand arg s).response ≠ some .appended → (appendCommand arg s).execState = s.execState ∧
      (appendCommand arg s).pc = s.pc ∧ (appendCommand arg s).regs = s.regs) := by
  obtain ⟨e, h⟩ | ⟨i, h⟩ := appendCommand_cases arg s <;> rw [h]
  · exact ⟨fun hr => (nomatch hr), fun _ => ⟨State.reject_execState s e, rfl, rfl⟩⟩
  · exact ⟨fun _ => ⟨by simp, rfl, rfl⟩, fun hr => absurd rfl hr⟩

/-- The row of `REMOVE_LAST`: either the engine was already reset, or it restarts. -/
theorem State.Inv.removeLastCommand_idle {s : State} (hinv : s.Inv) :
    (removeLastCommand s).execState = .idle ∧ (removeLastCommand s).pc = 0 ∧
      (removeLastCommand s).regs = Regs.zero := by
  by_cases hp : s.prog = []
  · rw [removeLastCommand_of_nil hp]
    exact (hinv.respond _).idle_of_pc (hinv.pc_of_nil hp)
  · rw [removeLastCommand_of_concat (List.dropLast_concat_getLast hp).symm]
    exact ⟨by simp, rfl, rfl⟩

/-- The rows of `RUN`. -/
theorem State.Inv.runCommand_execState {s t : State} (hinv : s.Inv) (h : runCommand s = .next t) :
    (s.prog = [] → t.execState = .idle ∧ t.pc = 0 ∧ t.regs = Regs.zero) ∧
    (s.prog ≠ [] → t.execState = .completed ∧ t.pc = s.prog.length) := by
  obtain ⟨hp, rfl⟩ | ⟨hp, x, rs, -, rfl⟩ := runCommand_next h
  · exact ⟨fun _ => (hinv.respond _).idle_of_pc (hinv.pc_of_nil hp), fun hne => absurd hp hne⟩
  · refine ⟨fun hnil => absurd hnil hp, fun _ => ⟨?_, rfl⟩⟩
    exact (execState_eq_completed_iff _).mpr ⟨List.length_pos_of_ne_nil hp, Nat.le_refl _⟩

/-- A `STEP` that executes the last instruction ends in `Completed`. -/
theorem stepCommand_completed {s t : State} (h : stepCommand s = .next t) (hlast : s.pc + 1 = s.prog.length) :
    t.execState = .completed ∧ t.pc = s.pc + 1 := by
  obtain ⟨hprog, hpc⟩ := stepCommand_next_of_lt h (by omega)
  refine ⟨?_, hpc⟩
  rw [execState_eq_completed_iff, hprog, hpc]
  omega

/-- A `STEP` that executes an earlier one ends in `Running`. -/
theorem stepCommand_running {s t : State} (h : stepCommand s = .next t) (hlt : s.pc + 1 < s.prog.length) :
    t.execState = .running ∧ t.pc = s.pc + 1 := by
  obtain ⟨hprog, hpc⟩ := stepCommand_next_of_lt h (by omega)
  refine ⟨?_, hpc⟩
  rw [execState_eq_running_iff, hprog, hpc]
  omega

/-- Settles O38: one lemma per command, and for `STEP` its rows by where the cursor stands. -/
theorem commandsFollowTheTransitionTable : Obligations.CommandsFollowTheTransitionTable := by
  unfold Obligations.CommandsFollowTheTransitionTable
  intro c s t hinv h
  cases c with
  | append arg => cases h; exact appendCommand_execState arg s
  | removeLast => cases h; exact hinv.removeLastCommand_idle
  | snapshot => cases h; exact ⟨State.respond_execState .., rfl, rfl⟩
  | run => exact hinv.runCommand_execState h
  | step =>
    rw [perform_step] at h
    simp only [execState_eq_idle_iff s, execState_eq_running_iff s, execState_eq_completed_iff s]
    have hle := hinv.pc_le_len
    refine ⟨fun hp => ?_, fun hs hlen => ?_, fun hs hlen => ?_, fun hs hlen => ?_, fun hs hlen => ?_, fun hs hm => ?_,
      fun hs hm => ?_⟩
    · rw [stepCommand_of_nil hp] at h; cases h
      exact (hinv.respond _).idle_of_pc (hinv.pc_of_nil hp)
    · have hpc : s.pc = 0 := by omega
      simpa [hpc] using stepCommand_completed h (by omega)
    · have hpc : s.pc = 0 := by omega
      simpa [hpc] using stepCommand_running h (by omega)
    · exact stepCommand_running h hlen
    · rw [← hlen]; exact stepCommand_completed h hlen
    · rw [stepCommand_resetOnly (List.ne_nil_of_length_pos hs.1) hs.2 hm] at h; cases h
      exact ⟨State.restart_execState s, rfl, rfl⟩
    · rw [stepCommand_eq_of_resetAndExecute (List.ne_nil_of_length_pos hs.1) hs.2 hm] at h
      split
      · next hone => exact stepCommand_completed h hone.symm
      · next hne => exact stepCommand_running h (Nat.lt_of_le_of_ne hs.1 (Ne.symm hne))

end Sys2Proof.Machine
end

section
/-! PROOFS. `RUN` (45_engine_commands.md R95) and runs of many commands: the loop executes every instruction once, in
order; it stops at the first wide operand under the policy `fault`; single stepping agrees with it and is periodic
(70_reset_and_hazards.md sections 1 and 2). -/

namespace Sys2Proof.Machine

/-! ### The loop of `RUN` -/

/-- The loop over at least one instruction executes it at the cursor and goes on with the rest. -/
theorem runLoop_cons_next {i : Instr} {rest : List Instr} {s t : State} {rs : List StepResult}
    (h : runLoop (i :: rest) s = .next (t, rs)) :
    ∃ x rs', exec i s = .next (s.setRegs x) ∧ runLoop rest ((s.setRegs x).setPc (s.pc + 1)) = .next (t, rs') ∧
      rs = stepResult (some s.pc) x :: rs' := by
  rw [runLoop] at h
  cases he : executeAtCursor i s with
  | fault f => rw [he] at h; cases h
  | refused r => rw [he] at h; cases h
  | next u =>
    obtain ⟨x, hx, rfl⟩ := executeAtCursor_next he
    rw [he] at h; dsimp only at h
    cases hr : runLoop rest ((s.setRegs x).setPc (s.pc + 1)) with
    | fault f => rw [hr] at h; cases h
    | refused r => rw [hr] at h; cases h
    | next v =>
      rw [hr] at h; cases h
      exact ⟨x, v.2, hx, hr, rfl⟩

/-- The state after the first `k` instructions of a list, executed from the cursor on. -/
def stateAfter : List Instr → State → Nat → State
  | _, s, 0 => s
  | [], s, _ + 1 => s
  | i :: rest, s, k + 1 =>
    match executeAtCursor i s with
    | .next t => stateAfter rest t k
    | .fault _ | .refused _ => s

@[simp] theorem stateAfter_zero (l : List Instr) (s : State) : stateAfter l s 0 = s := by cases l <;> rfl

theorem stateAfter_cons_succ {i : Instr} {s : State} {x : Regs} (h : exec i s = .next (s.setRegs x))
    (rest : List Instr) (k : Nat) :
    stateAfter (i :: rest) s (k + 1) = stateAfter rest ((s.setRegs x).setPc (s.pc + 1)) k := by
  have he : executeAtCursor i s = .next ((s.setRegs x).setPc (s.pc + 1)) := by rw [executeAtCursor, h]
  rw [stateAfter, he]

/-- The loop ends in the state after all its instructions. -/
theorem runLoop_next_eq_stateAfter {l : List Instr} {s t : State} {rs : List StepResult}
    (h : runLoop l s = .next (t, rs)) : t = stateAfter l s l.length := by
  induction l generalizing s rs with
  | nil => cases h; rfl
  | cons i rest ih =>
    obtain ⟨x, rs', hx, hr, -⟩ := runLoop_cons_next h
    rw [List.length_cons, stateAfter_cons_succ hx, ← ih hr]

/-- The loop executes its instruction `k` on the state after the ones before it; the result of index `k` carries the
registers just after. -/
theorem runLoop_next_executes {l : List Instr} {s t : State} {rs : List StepResult} (h : runLoop l s = .next (t, rs))
    {k : Nat} {i : Instr} (hk : l[k]? = some i) :
    ∃ u, exec i (stateAfter l s k) = .next u ∧ stateAfter l s (k + 1) = u.setPc (s.pc + k + 1) ∧
      rs[k]? = some (stepResult (some (s.pc + k)) u.regs) := by
  induction l generalizing s rs k with
  | nil => simp at hk
  | cons j rest ih =>
    obtain ⟨x, rs', hx, hr, rfl⟩ := runLoop_cons_next h
    cases k with
    | zero =>
      obtain rfl : j = i := by simpa using hk
      exact ⟨_, hx, by rw [stateAfter_cons_succ hx]; simp, rfl⟩
    | succ k =>
      rw [List.getElem?_cons_succ] at hk
      obtain ⟨u, hu, hnext, hres⟩ := ih hr hk
      have hpc : s.pc + 1 + k = s.pc + (k + 1) := by omega
      rw [State.setPc_pc, hpc] at hnext hres
      exact ⟨u, by rw [stateAfter_cons_succ hx]; exact hu, by rw [stateAfter_cons_succ hx]; exact hnext, hres⟩

/-- Settles O34: the loop completes where nothing can stop, from the restarted engine, and the states are those after its
first instructions. -/
theorem runExecutesEveryInstructionOnce : Obligations.RunExecutesEveryInstructionOnce := by
  unfold Obligations.RunExecutesEveryInstructionOnce
  intro s hne hrun
  have hadmits : ∀ i ∈ s.prog, s.restart.Admits i := fun i hi => hrun.symm.imp_left fun h => h i hi
  obtain ⟨t, rs, hloop⟩ := runLoop_completes hadmits
  obtain ⟨⟨x, ht⟩, hlen⟩ := runLoop_next hloop
  rw [State.restart_pc, Nat.zero_add] at ht
  refine ⟨t.respond (.ran rs), rs, stateAfter s.prog s.restart, runCommand_of_loop_next hne hloop, hlen,
    stateAfter_zero .., fun k i hk => ?_, by rw [runLoop_next_eq_stateAfter hloop], ?_⟩
  · simpa [stepResult] using runLoop_next_executes hloop hk
  · subst ht
    exact ⟨rfl, rfl, (execState_eq_completed_iff _).mpr ⟨List.length_pos_of_ne_nil hne, Nat.le_refl _⟩⟩

/-- Under the policy `fault` the loop stops at the first instruction that names a wide register. -/
theorem runLoop_fault {before after : List Instr} {i : Instr} {s : State} (hp : s.params.wideOperandPolicy = .fault)
    (hbefore : ∀ j ∈ before, j.namesWide = false) (hw : i.namesWide = true) :
    runLoop (before ++ i :: after) s = .fault (.wideOperandUnspecified (s.pc + before.length)) := by
  induction before generalizing s with
  | nil => rw [List.nil_append, runLoop, executeAtCursor, exec_fault hw hp]; rfl
  | cons j before ih =>
    rw [List.forall_mem_cons] at hbefore
    obtain ⟨d, v, -, he⟩ := exec_byteOnly hbefore.1 s
    have hrest := ih (s := (s.setRegs (writeByte d v s.regs)).setPc (s.pc + 1)) hp hbefore.2
    rw [State.setPc_pc, Nat.add_assoc, Nat.add_comm 1] at hrest
    exact runLoop_cons_of_fault he hrest

/-- Settles O36: the loop starts from the cursor 0. -/
theorem runStopsAtTheFirstWideOperand : Obligations.RunStopsAtTheFirstWideOperand := by
  unfold Obligations.RunStopsAtTheFirstWideOperand
  intro s before after i hp hprog hbefore hw
  have hloop : runLoop s.prog s.restart = .fault (.wideOperandUnspecified (0 + before.length)) := by
    rw [hprog]; exact runLoop_fault (s := s.restart) hp hbefore hw
  rw [perform_run, runCommand_of_loop_fault (by simp [hprog]) hloop, Nat.zero_add]

/-! ### Single stepping -/

/-- With no commands left, a step at an instruction that completes. -/
theorem step_of_exec {s : State} {i : Instr} {x : Regs} (hc : s.commands = []) (hi : s.prog[s.pc]? = some i)
    (hx : exec i s = .next (s.setRegs x)) :
    step s = .next (((s.setRegs x).setPc (s.pc + 1)).respond (.stepped (stepResult (some s.pc) x))) := by
  rw [step_of_no_commands hc, stepCommand_at_cursor hi, stepExecuting_of_exec hx]

/-- Single steps from an engine with the same registers, Program and cursor follow the loop of `RUN`. -/
theorem run_of_runLoop {l : List Instr} {s t v : State} {rs : List StepResult} (h : runLoop l s = .next (t, rs))
    (hl : s.prog.drop s.pc = l) (he : v.engine = s.engine) (hp : v.params = s.params) (hc : v.commands = []) :
    ∃ u : State, Host.Core.run Sys2Proof.core l.length v = .next u ∧ u.engine = t.engine := by
  induction l generalizing s v rs with
  | nil => cases h; exact ⟨v, rfl, he⟩
  | cons i rest ih =>
    obtain ⟨x, rs', hx, hr, -⟩ := runLoop_cons_next h
    obtain ⟨hregs, hprog, hpc⟩ : v.regs = s.regs ∧ v.prog = s.prog ∧ v.pc = s.pc := Engine.mk.inj he
    have hi : v.prog[v.pc]? = some i := by rw [hprog, hpc, ← List.head?_drop, hl]; rfl
    have hrest : s.prog.drop (s.pc + 1) = rest := by rw [← List.tail_drop, hl]; rfl
    have hstep := step_of_exec hc hi (exec_of_same_regs hregs hp hx)
    obtain ⟨u, hu, hue⟩ := ih (s := (s.setRegs x).setPc (s.pc + 1))
      (v := ((v.setRegs x).setPc (v.pc + 1)).respond (.stepped (stepResult (some v.pc) x))) hr hrest
      (by simp [hprog, hpc]) hp hc
    exact ⟨u, by rw [List.length_cons, run_succ hstep]; exact hu, hue⟩

/-- Settles O37: `RUN` is the loop over the whole Program from the restarted engine, and single steps follow it. -/
theorem runAgreesWithSingleSteps : Obligations.RunAgreesWithSingleSteps := by
  unfold Obligations.RunAgreesWithSingleSteps
  intro s t hne hc h
  obtain ⟨v, rs, hloop, rfl⟩ := runCommand_next_loop hne h
  simp only [State.respond_engine]
  exact run_of_runLoop hloop rfl rfl rfl hc

/-- Where nothing can stop, `k` single steps within the Program move the cursor by `k`. -/
theorem run_within_program {s : State} (hc : s.commands = []) (hs : s.CannotStop) {k : Nat}
    (hk : s.pc + k ≤ s.prog.length) :
    ∃ t : State, Host.Core.run Sys2Proof.core k s = .next t ∧
      t.prog = s.prog ∧ t.pc = s.pc + k ∧ t.params = s.params ∧ t.commands = [] := by
  induction k generalizing s with
  | zero => exact ⟨s, rfl, rfl, rfl, rfl, hc⟩
  | succ k ih =>
    obtain ⟨t, ht, hts⟩ := stepsThatCannotStopStaySo s hs
    have htcmds : t.commands = [] := by rw [(perform_next_params_commands ht).2]; simp [hc]
    have htparams := stepsNeverChangeTheParameters s t ht
    obtain ⟨htprog, htpc⟩ := stepCommand_next_of_lt (step_of_no_commands hc ▸ ht) (by omega)
    obtain ⟨u, hu, huprog, hupc, huparams, hucmds⟩ := ih htcmds hts (by rw [htprog, htpc]; omega)
    exact ⟨u, by rw [run_succ ht]; exact hu, huprog.trans htprog, by omega, huparams.trans htparams, hucmds⟩

/-- A run and one step more. -/
theorem run_step {s t u : State} {k : Nat} (h : Host.Core.run Sys2Proof.core k s = .next t) (hstep : step t = .next u) :
    Host.Core.run Sys2Proof.core (k + 1) s = .next u := by
  rw [run_add h, run_succ hstep]; rfl

/-- Settles O45: `len` steps lead to the end of the Program, and the next one restarts, which is where they began. -/
theorem resetOnlySteppingHasPeriodLenPlusOne : Obligations.ResetOnlySteppingHasPeriodLenPlusOne := by
  unfold Obligations.ResetOnlySteppingHasPeriodLenPlusOne
  intro s hinv hne hpc hc hs hm
  obtain ⟨t, ht, htprog, htpc, htparams, htcmds⟩ := run_within_program hc hs (k := s.prog.length) (by omega)
  have hstep : step t = .next (stepIdle t.restart) := by
    rw [step_of_no_commands htcmds]
    exact stepCommand_resetOnly (htprog ▸ hne) (by rw [htprog]; omega) (htparams ▸ hm)
  refine ⟨_, run_step ht hstep, ?_⟩
  rw [stepIdle, State.respond_engine, State.restart_engine, htprog, ← hinv.zero_at_start hpc, ← hpc]; rfl

/-- Settles O46: `len - 1` steps lead from cursor 1 to the end of the Program, and the next one restarts and executes
`prog[0]` on zero registers, as the first step did. -/
theorem resetAndExecuteSteppingHasPeriodLen : Obligations.ResetAndExecuteSteppingHasPeriodLen := by
  unfold Obligations.ResetAndExecuteSteppingHasPeriodLen
  intro s u hinv hne hpc hc hs hm hu
  have hlen := List.length_pos_of_ne_nil hne
  have hi : s.prog[s.pc]? = some s.prog[0] := by rw [hpc]; exact List.getElem?_eq_getElem hlen
  obtain ⟨x, hx⟩ := exec_of_admits (hs.admits _ (List.getElem_mem hlen))
  have hus := step_next_cannotStop hs hu
  have hueq := Host.Outcome.next.inj ((step_of_exec hc hi hx).symm.trans hu)
  have huprog : u.prog = s.prog := hueq ▸ rfl
  have hupc : u.pc = 1 := by rw [← hueq, State.respond_pc, State.setPc_pc, hpc]
  obtain ⟨t, ht, htprog, htpc, htparams, htcmds⟩ :=
    run_within_program (s := u) (k := s.prog.length - 1) (hueq ▸ hc) hus (by rw [hupc, huprog]; omega)
  have htprog := htprog.trans huprog
  have htparams : t.params = s.params := htparams.trans (stepsNeverChangeTheParameters s u hu)
  have hx' : exec s.prog[0] t.restart = .next (t.restart.setRegs x) :=
    exec_of_same_regs (hinv.zero_at_start hpc).symm htparams hx
  have hstep : step t = stepExecuting s.prog[0] t.restart := by
    rw [step_of_no_commands htcmds]
    exact stepCommand_resetAndExecute (by rw [htprog]; exact List.getElem?_eq_getElem hlen) (by rw [htprog]; omega)
      (htparams ▸ hm)
  rw [stepExecuting_of_exec hx'] at hstep
  refine ⟨_, by rw [← Nat.sub_add_cancel hlen]; exact run_step ht hstep, ?_⟩
  rw [← hueq]
  simp [htprog, hpc]

/-! ### Runs of `APPEND`s and of `REMOVE_LAST`s -/

/-- A step with commands left performs the first of them. -/
theorem step_of_commands {s : State} {c : Command} {cs : List Command} (h : s.commands = c :: cs) :
    step s = perform c (s.setCommands cs) := by
  rw [step_eq, nextCommand, h]; rfl

/-- A step that appends a typed instruction, with no bound on the Program. -/
theorem step_append_typed {s : State} {i : Instr} {cs : List Command} (h : s.commands = .append (.typed i) :: cs)
    (hmax : s.params.progMax = none) :
    step s = .next ((((s.setCommands cs).setProg (s.prog ++ [i])).restart).respond .appended) := by
  have hroom : (s.setCommands cs).isFull = false := by simp [isFull_eq_false_iff, hmax]
  rw [step_of_commands h, perform_append, appendCommand_of_room rfl hroom]; rfl

/-- A step that removes the last instruction of a non-empty Program. -/
theorem step_removeLast {s : State} {cs : List Command} (h : s.commands = .removeLast :: cs) (hne : s.prog ≠ []) :
    step s = .next ((((s.setCommands cs).setProg s.prog.dropLast).restart).respond (.removed true)) := by
  have hlast : (s.setCommands cs).prog = s.prog.dropLast ++ [s.prog.getLast hne] :=
    (List.dropLast_concat_getLast hne).symm
  rw [step_of_commands h, perform_removeLast, removeLastCommand_of_concat hlast]

/-- Appending a list of instructions to a reset engine stores them last. -/
theorem run_appends {l : List Instr} {s : State} (hmax : s.params.progMax = none)
    (hc : s.commands = l.map (fun i => Command.append (.typed i))) (hregs : s.regs = Regs.zero) (hpc : s.pc = 0) :
    ∃ t : State, Host.Core.run Sys2Proof.core l.length s = .next t ∧
      t.engine = { regs := Regs.zero, prog := s.prog ++ l, pc := 0 } ∧ t.params = s.params ∧ t.commands = [] := by
  induction l generalizing s with
  | nil => exact ⟨s, rfl, by rw [List.append_nil, ← hregs, ← hpc]; rfl, rfl, hc⟩
  | cons i l ih =>
    have hstep := step_append_typed hc hmax
    obtain ⟨t, ht, hte, htp, htc⟩ := ih
      (s := (((s.setCommands (l.map fun j => .append (.typed j))).setProg (s.prog ++ [i])).restart).respond .appended)
      hmax rfl rfl rfl
    refine ⟨t, by rw [List.length_cons, run_succ hstep]; exact ht, ?_, htp, htc⟩
    rw [hte]; simp

/-- Settles O43: one append per instruction; the reset engine has the empty Program, the cursor 0 and zero registers. -/
theorem appendsFromResetBuildTheProgram : Obligations.AppendsFromResetBuildTheProgram := by
  unfold Obligations.AppendsFromResetBuildTheProgram
  intro p l hmax
  exact run_appends (s := (State.resetWith p).setCommands (l.map (fun i => Command.append (.typed i)))) hmax rfl rfl rfl

/-- Removing all instructions, and once more, leaves the reset engine. -/
theorem run_removeLasts {n : Nat} {s : State} (hlen : s.prog.length = n)
    (hc : s.commands = List.replicate (n + 1) Command.removeLast) (hzero : n = 0 → s.regs = Regs.zero ∧ s.pc = 0) :
    ∃ t : State, Host.Core.run Sys2Proof.core (n + 1) s = .next t ∧
      t.response = some (.removed false) ∧ t.engine = { regs := Regs.zero, prog := [], pc := 0 } := by
  induction n generalizing s with
  | zero =>
    have hp := List.length_eq_zero_iff.mp hlen
    obtain ⟨hregs, hpc⟩ := hzero rfl
    have hstep := (step_of_commands hc).trans (congrArg Host.Outcome.next (removeLastCommand_of_nil hp))
    refine ⟨_, run_succ hstep 0, rfl, ?_⟩
    rw [State.respond_engine, ← hregs, ← hp, ← hpc]; rfl
  | succ n ih =>
    have hstep := step_removeLast hc (List.ne_nil_of_length_pos (by omega))
    obtain ⟨t, ht, htr, hte⟩ := ih
      (s := (((s.setCommands (List.replicate (n + 1) .removeLast)).setProg s.prog.dropLast).restart).respond
        (.removed true)) (by simp [hlen]) rfl fun _ => ⟨rfl, rfl⟩
    exact ⟨t, by rw [run_succ hstep]; exact ht, htr, hte⟩

/-- Settles O44: one removal per instruction, and at the empty Program the invariant gives the reset engine. -/
theorem removingUntilFalseEmptiesTheEngine : Obligations.RemovingUntilFalseEmptiesTheEngine := by
  unfold Obligations.RemovingUntilFalseEmptiesTheEngine
  intro s hinv
  refine run_removeLasts (s := s.setCommands (List.replicate (s.prog.length + 1) Command.removeLast)) rfl rfl
    fun h => ?_
  have hpc : s.pc = 0 := hinv.pc_of_nil (List.length_eq_zero_iff.mp h)
  exact ⟨hinv.zero_at_start hpc, hpc⟩

end Sys2Proof.Machine
end

section
/-! PROOFS. The register snapshot (45_engine_commands.md R97): the binary and hexadecimal strings spell the value they are
made from. -/

namespace Sys2Proof.Machine

/-- The value of a binary digit. -/
def binDigitValue (c : Char) : Nat := if c = '1' then 1 else 0

/-- The value of a hexadecimal digit. -/
def hexDigitValue (c : Char) : Nat := "0123456789ABCDEF".toList.idxOf c

theorem hexDigit_spec {d : Nat} (h : d < 16) :
    hexDigit d ∈ "0123456789ABCDEF".toList ∧ hexDigitValue (hexDigit d) = d := by
  revert d; decide

theorem binString_length (width v : Nat) : (binString width v).length = width := by
  induction width with
  | zero => rfl
  | succ width ih => rw [binString, List.length_cons, ih]

theorem hexString_length (digits v : Nat) : (hexString digits v).length = digits := by
  induction digits with
  | zero => rfl
  | succ digits ih => rw [hexString, List.length_cons, ih]

theorem binString_chars (width v : Nat) : ∀ c ∈ binString width v, c = '0' ∨ c = '1' := by
  induction width with
  | zero => intro c hc; cases hc
  | succ width ih =>
    rw [binString, List.forall_mem_cons]
    refine ⟨?_, ih⟩
    split <;> simp

theorem hexString_chars (digits v : Nat) : ∀ c ∈ hexString digits v, c ∈ "0123456789ABCDEF".toList := by
  induction digits with
  | zero => intro c hc; cases hc
  | succ digits ih =>
    rw [hexString, List.forall_mem_cons]
    exact ⟨(hexDigit_spec (Nat.mod_lt _ (by decide))).1, ih⟩

/-- Splitting off the digit of weight `b ^ n`. -/
theorem mod_pow_succ_eq (v b n : Nat) : v % b ^ (n + 1) = b ^ n * (v / b ^ n % b) + v % b ^ n := by
  rw [Nat.pow_succ, Nat.mod_mul, Nat.add_comm]

/-- Reading a binary string after the number `a` shifts `a` and adds the value modulo the string's range. -/
theorem binString_foldl (width v a : Nat) :
    (binString width v).foldl (fun n c => 2 * n + binDigitValue c) a = a * 2 ^ width + v % 2 ^ width := by
  induction width generalizing a with
  | zero => simp [binString, Nat.mod_one]
  | succ width ih =>
    have digit : binDigitValue (if v / 2 ^ width % 2 = 1 then '1' else '0') = v / 2 ^ width % 2 := by
      split
      · next h => rw [h]; rfl
      · next h => rw [Nat.mod_two_not_eq_one.mp h]; rfl
    rw [binString, List.foldl_cons, ih, digit, mod_pow_succ_eq]
    ring

/-- Reading a hexadecimal string after the number `a` shifts `a` and adds the value modulo the string's range. -/
theorem hexString_foldl (digits v a : Nat) :
    (hexString digits v).foldl (fun n c => 16 * n + hexDigitValue c) a = a * 16 ^ digits + v % 16 ^ digits := by
  induction digits generalizing a with
  | zero => simp [hexString, Nat.mod_one]
  | succ digits ih =>
    have digit : hexDigitValue (hexDigit (v / 16 ^ digits % 16)) = v / 16 ^ digits % 16 :=
      (hexDigit_spec (Nat.mod_lt _ (by decide))).2
    rw [hexString, List.foldl_cons, ih, digit, mod_pow_succ_eq]
    ring

theorem readReg_lt (n : RegName) (x : Regs) : readReg n x < 2 ^ regWidth n := by
  cases n with
  | byte r => exact (readByte r x).isLt
  | wide w => exact (readWide w x).isLt

/-- The width is four times the number of hexadecimal digits. -/
theorem two_pow_regWidth (n : RegName) : 2 ^ regWidth n = 16 ^ (regWidth n / 4) := by cases n <;> simp [regWidth]

/-- Settles O40: the strings have the width of the name, hold digits only, and spell the value, which is in range. -/
theorem snapshotSpellsEveryRegister : Obligations.SnapshotSpellsEveryRegister := by
  unfold Obligations.SnapshotSpellsEveryRegister
  refine fun x => ⟨rfl, fun e he => ?_⟩
  obtain ⟨n, -, rfl⟩ := List.mem_map.mp he
  refine ⟨?_, ?_, ?_, binString_chars _ _, hexString_chars _ _, ?_, ?_⟩
  · cases n <;> rfl
  · refine (binString_length _ _).trans ?_
    cases n <;> rfl
  · refine (hexString_length _ _).trans ?_
    cases n <;> simp [regWidth, snapshotEntry]
  · refine (binString_foldl _ _ 0).trans ?_
    rw [Nat.zero_mul, Nat.zero_add, Nat.mod_eq_of_lt (readReg_lt n x)]; rfl
  · refine (hexString_foldl _ _ 0).trans ?_
    rw [Nat.zero_mul, Nat.zero_add, ← two_pow_regWidth, Nat.mod_eq_of_lt (readReg_lt n x)]; rfl

end Sys2Proof.Machine
end
